-- ==== Sys2Proof/Word.lean ====
section
/-!
DEFINITION. The words that cross the block's interface (spec/10_state.md R24, spec/00_scope.md R7, R8).
Bit 0 is the least significant bit of every word (R8).
-/
namespace Sys2Proof

/-- The 64-bit word of `STATE`, `OPA`, `OPB` and `RESULT` (00_scope R7, 10_state R24). -/
abbrev Word64 := BitVec 64

/-- The 16-bit command word `CMD` (10_state R24). -/
abbrev CmdWord := BitVec 16

/-- The 8-bit field `SIZE = CMD[15:8]`, a width in bits (30_encoding R52, R53). -/
abbrev SizeField := BitVec 8

/-- One request: the three fields always presented together (10_state R24, 30_encoding R51, 20_memory R41). -/
structure Request where
  cmd : CmdWord
  opa : Word64
  opb : Word64
deriving DecidableEq, Repr

end Sys2Proof
end

