-- ==== Sys2Proof/Syntax.lean ====
section
/-!
DEFINITION. The ten commands (spec/30_encoding.md R54, spec/opcode_table.json), one constructor a row, with the operands
the command reads (spec/10_state.md R25) at the width the request gives them. Every term is a legal command: the operand
types are exactly the fields of the request, so a term needs no check of its own (the assembler's operands do, see
WellFormed.lean).
-/
namespace Sys2Proof

/-- A legal command with the operands it reads (30_encoding R53, R54). -/
inductive Instr where
  /-- SEED: `OPA` is the seed (40_core R71). -/
  | seed (seed : Word64)
  /-- NEXT: one transition (40_core R72). -/
  | next
  /-- RANGEU: `OPA` is min, `OPB` is max, both read as unsigned (41_derivation R81). -/
  | rangeu (min max : Word64)
  /-- RANGES: `OPA` is min, `OPB` is max, both read as signed (41_derivation R82). -/
  | ranges (min max : Word64)
  /-- FLOAT64 (41_derivation R84). -/
  | float64
  /-- FLOAT32 (41_derivation R86). -/
  | float32
  /-- BOOL (41_derivation R88). -/
  | bool
  /-- UNSIGNED: `SIZE` is the width (41_derivation R89); every value 0 to 255 decodes (30_encoding R57). -/
  | unsigned (size : SizeField)
  /-- SIGNED: `SIZE` is the width (41_derivation R90). -/
  | signed (size : SizeField)
  /-- PICK: `OPA` is the length of the host's sequence (42_selection R101). -/
  | pick (length : Word64)
deriving DecidableEq, Repr

end Sys2Proof
end

