-- ==== Sys2Proof/Decode.lean ====
section
/-!
DEFINITION. From a request to a command, and back (spec/30_encoding.md R51 to R57). The decoder is total: it answers the
command, or why the command word is illegal. The encoder, the opcode table as rows of mask and pattern (R54), and the
numbering of the table's bits stand after it.
-/
namespace Sys2Proof

/-- `OP = CMD[3:0]` (R52). -/
def opField (cmd : CmdWord) : BitVec 4 := cmd.extractLsb' 0 4

/-- `RSV = CMD[7:4]` (R52). -/
def rsvField (cmd : CmdWord) : BitVec 4 := cmd.extractLsb' 4 4

/-- `SIZE = CMD[15:8]` (R52). -/
def sizeField (cmd : CmdWord) : SizeField := cmd.extractLsb' 8 8

/-- Why a command word is illegal (R56), in the order of the decode procedure (R55). The block's status is the same for
all three (60_exceptions R111): the reason is the decoder's, not the block's (log entry 17). -/
inductive IllegalReason where
  /-- `OP` is 0x0 or 0xB to 0xF. -/
  | reservedOpcode
  /-- `RSV` is not 0. -/
  | reservedBits
  /-- `SIZE` is not 0 and `OP` is neither UNSIGNED nor SIGNED. -/
  | misplacedSize
deriving DecidableEq, Repr

/-- The answer of the decode procedure (R55): a command, or Illegal. -/
inductive Decoded where
  | legal (i : Instr)
  | illegal (why : IllegalReason)
deriving DecidableEq, Repr

/-- The opcode map (R54): the command an opcode names, with the operands it reads taken whole (R53). Reserved opcodes
name none. -/
def commandOf (op : BitVec 4) (size : SizeField) (opa opb : Word64) : Option Instr :=
  match op.toNat with
  | 0x1 => some (.seed opa)
  | 0x2 => some .next
  | 0x3 => some (.rangeu opa opb)
  | 0x4 => some (.ranges opa opb)
  | 0x5 => some .float64
  | 0x6 => some .float32
  | 0x7 => some .bool
  | 0x8 => some (.unsigned size)
  | 0x9 => some (.signed size)
  | 0xA => some (.pick opa)
  | _ => none

/-- The decode procedure, total on every command word (R55). -/
def decode (r : Request) : Decoded :=
  match commandOf (opField r.cmd) (sizeField r.cmd) r.opa r.opb with
  | none => .illegal .reservedOpcode
  | some i =>
    if rsvField r.cmd ≠ 0 then .illegal .reservedBits
    else if sizeField r.cmd ≠ 0 ∧ opField r.cmd ≠ 0x8 ∧ opField r.cmd ≠ 0x9 then .illegal .misplacedSize
    else .legal i

/-- The request of a command (R54, R58): an operand word the command ignores is 0. -/
def encode : Instr → Request
  | .seed v => { cmd := 0x0001, opa := v, opb := 0 }
  | .next => { cmd := 0x0002, opa := 0, opb := 0 }
  | .rangeu lo hi => { cmd := 0x0003, opa := lo, opb := hi }
  | .ranges lo hi => { cmd := 0x0004, opa := lo, opb := hi }
  | .float64 => { cmd := 0x0005, opa := 0, opb := 0 }
  | .float32 => { cmd := 0x0006, opa := 0, opb := 0 }
  | .bool => { cmd := 0x0007, opa := 0, opb := 0 }
  | .unsigned n => { cmd := n ++ 0x08#8, opa := 0, opb := 0 }
  | .signed n => { cmd := n ++ 0x09#8, opa := 0, opb := 0 }
  | .pick n => { cmd := 0x000A, opa := n, opb := 0 }

/-- One row of the opcode table (R54, opcode_table.json): a command word belongs to the row when its masked bits are the
pattern. -/
structure OpcodeRow where
  mask : CmdWord
  pattern : CmdWord
deriving DecidableEq, Repr

/-- The row of each command (R54). -/
def rowOf : Instr → OpcodeRow
  | .seed _ => { mask := 0xFFFF, pattern := 0x0001 }
  | .next => { mask := 0xFFFF, pattern := 0x0002 }
  | .rangeu _ _ => { mask := 0xFFFF, pattern := 0x0003 }
  | .ranges _ _ => { mask := 0xFFFF, pattern := 0x0004 }
  | .float64 => { mask := 0xFFFF, pattern := 0x0005 }
  | .float32 => { mask := 0xFFFF, pattern := 0x0006 }
  | .bool => { mask := 0xFFFF, pattern := 0x0007 }
  | .unsigned _ => { mask := 0x00FF, pattern := 0x0008 }
  | .signed _ => { mask := 0x00FF, pattern := 0x0009 }
  | .pick _ => { mask := 0xFFFF, pattern := 0x000A }

/-- The opcode table as the spec lists it (R54): ten rows in opcode order. -/
def opcodeTable : List OpcodeRow :=
  [rowOf (.seed 0), rowOf .next, rowOf (.rangeu 0 0), rowOf (.ranges 0 0), rowOf .float64, rowOf .float32,
    rowOf .bool, rowOf (.unsigned 0), rowOf (.signed 0), rowOf (.pick 0)]

/-- Does the word belong to the row? -/
def OpcodeRow.holds (row : OpcodeRow) (cmd : CmdWord) : Bool := cmd &&& row.mask == row.pattern

/-- The request whose bits are `w`, numbered as opcode_table.json numbers them: `CMD` is bits 15 to 0, and the operand
words follow, `OPA` bits 79 to 16 and `OPB` bits 143 to 80 (log entry 8). Bits at and above `nbits` are 0. -/
def requestOfTableBits (nbits w : Nat) : Request :=
  let v := w % 2 ^ nbits
  { cmd := BitVec.ofNat 16 v, opa := BitVec.ofNat 64 (v / 2 ^ 16), opb := BitVec.ofNat 64 (v / 2 ^ 80) }

/-- The command the decoder reads from a table row's bits; none where the word is illegal. -/
def decodeTableWord (nbits w : Nat) : Option Instr :=
  match decode (requestOfTableBits nbits w) with
  | .legal i => some i
  | .illegal _ => none

end Sys2Proof
end

