-- ==== Sys2Proof/Machine/Operands.lean ====
section
/-!
DEFINITION. The readings of words that the rules use (spec/00_scope.md R9, spec/30_encoding.md R53), and the fields of a draw
(spec/41_derivation.md R84 to R90).
-/
namespace Sys2Proof.Machine

/-- `u64(v) = v mod 2^64` (R9). -/
def u64 (v : Nat) : Word64 := BitVec.ofNat 64 v

/-- `s64(v)`: the two's-complement reading of a word (R9). -/
def s64 (v : Word64) : Int := v.toInt

/-- `hi64(p) = p >> 64` of an exact product (R9). -/
def hi64 (p : Nat) : Nat := p / 2 ^ 64

/-- `lo64(p) = p mod 2^64` of an exact product (R9). -/
def lo64 (p : Nat) : Nat := p % 2 ^ 64

/-- `span = u64(hi - lo)` of a range (00_scope R13; R81, R82). -/
def spanOf (lo hi : Word64) : Word64 := hi - lo

/-- The field `x[63 : 64-w]`, the top `w` bits of a draw. -/
def topBits (w : Nat) (x : Word64) : BitVec w := (x >>> (64 - w)).setWidth w

/-- The field `h[31:8]`, the top 24 bits of a 32-bit slice (R86). -/
def top24 (h : BitVec 32) : BitVec 24 := (h >>> 8).setWidth 24

/-- `zext_64(v)`: zeros above an N-bit value (R9). -/
def zext64 {w : Nat} (v : BitVec w) : Word64 := v.setWidth 64

/-- `sext_64(v)`: copies of bit `N-1` above an N-bit value (R9). -/
def sext64 {w : Nat} (v : BitVec w) : Word64 := v.signExtend 64

end Sys2Proof.Machine
end

