-- ==== Sys2Proof/Config.lean ====
section
/-!
DEFINITION. What an implementation of the block fixes and the spec leaves open: the parameters `LCG_A` and `LCG_C`
(spec/00_scope.md R5, spec/92_eei_decisions.md D2) and the host's byte order (spec/20_memory.md R37).
-/
namespace Sys2Proof

/-- The two parameters of one built block. R5 admits a multiplier only with `LCG_A mod 4 = 1` and an increment only
with `LCG_C mod 2 = 1`, so the parameters ARE the remaining bits: `LCG_A` is `aHigh` followed by the bits `01`, `LCG_C` is
`cHigh` followed by the bit `1` (`Params.multiplier`, `Params.increment` in Machine/Params.lean). Every admitted pair is
one value of this type, and no other pair can be written (log entry 2). -/
structure Params where
  aHigh : BitVec 62
  cHigh : BitVec 63
deriving DecidableEq, Repr

/-- Bits 63 to 2 of the instance's `LCG_A`: a free value (R5; 91_not_in_source N1 forbids assuming one). -/
opaque Config.lcgAHigh : BitVec 62

/-- Bits 63 to 1 of the instance's `LCG_C`: a free value (R5, N1). -/
opaque Config.lcgCHigh : BitVec 63

/-- The parameters of the built block, fixed for its lifetime and known to no proof (R5, log entry 1). -/
def Config.params : Params := { aHigh := Config.lcgAHigh, cHigh := Config.lcgCHigh }

/-- The byte orders a host can use in its own memory (log entry 11). -/
inductive ByteOrder where
  | littleEndian
  | bigEndian
deriving DecidableEq, Repr, Inhabited

/-- `HOST_BYTE_ORDER` (20_memory R37): the host's, outside the block; no rule of the block reads it. A free value. -/
opaque Config.hostByteOrder : ByteOrder

end Sys2Proof
end

