-- ==== Sys2Proof/Machine/State.lean ====
section
/-!
DEFINITION. The state of the machine (spec/10_state.md R21 to R32), its statuses and responses (spec/60_exceptions.md R107),
the reasons a step can stop, and the state after reset (spec/70_reset_and_hazards.md R130).
-/
namespace Sys2Proof.Machine

/-- The outcomes of a command that the STATUS field can carry (60_exceptions R107). Codes 6 and 7 are never produced and
have no constructor (log entry 13). The codes are `Status.code` in Machine/Flags.lean. -/
inductive Status where
  /-- Code 0: the command completed. -/
  | ok
  /-- Code 1: PICK on an empty sequence; absence, not an error. -/
  | absent
  /-- Code 2: RANGEU or RANGES with min > max. -/
  | invalidRange
  /-- Code 3: UNSIGNED or SIGNED with a width other than 8, 16, 32, 64. -/
  | invalidBitWidth
  /-- Code 4: a command other than SEED while `SEEDED = 0`. -/
  | notSeeded
  /-- Code 5: a command word that decodes as Illegal. -/
  | illegalCommand
deriving DecidableEq, Repr

/-- One response: the two fields, moved together (10_state R24, 20_memory R41). -/
structure Response where
  status : Status
  result : Word64
deriving DecidableEq, Repr

/-- The state of the machine. `state` and `seeded` are the block's two registers; `requests` and `responses` are its two
channels; `params` carries the instance's parameters, which are no state of the block (R29, R32) and which nothing
writes (log entry 1). There is no other state (R23, R26 to R31, log entry 16), and one State is one instance (log entry 15). -/
structure State where
  /-- `LCG_A` and `LCG_C` of this instance (00_scope R5). -/
  params : Params
  /-- `STATE`, the state word (R21); none is the spec's "holds no value" (R22, R32, log entry 3). -/
  state : Option Word64
  /-- `SEEDED`: the block holds a generator (R22). -/
  seeded : Bool
  /-- The request channel: the requests presented and not yet performed, the next one first (R24, log entry 4). -/
  requests : List Request
  /-- The response channel: the responses produced and not yet taken, the oldest first (R24, log entry 5). -/
  responses : List Response
deriving DecidableEq, Repr

/-- Why a step stops without a next state. Neither is a behaviour of the block: the spec names both cases to exclude
them, and neither arises in a state where `SEEDED = 1` implies that `STATE` holds a value. -/
inductive Fault where
  /-- Raised by a draw while `STATE` holds no value: "if a model's own step ever read it, that step shall `fault`"
  (93_implementation_defined I5). Safe: the block has no such state (10_state R21, R32). -/
  | unwrittenStateRead
  /-- Raised by RANGEU, RANGES and PICK if a whole period of draws were rejected, so that the loop of 41_derivation R80
  would never end. Safe: R83(b) says that it ends (log entry 7). -/
  | rejectionEndless
deriving DecidableEq, Repr

/-- Why a step has no meaning. -/
inductive Refusal where
  /-- Raised by an arm of `exec` without a meaning; no arm is left without one. Safe. -/
  | notModelled (mnemonic : String)
deriving DecidableEq, Repr

/-- What one step answers. -/
abbrev Answer := Host.Outcome State Fault Refusal

/-- The machine right after reset (10_state R32, 70_reset R130): `SEEDED` is 0, `STATE` unwritten, both channels idle. The
parameters are those the instance was built with (00_scope R5). -/
def State.reset : State :=
  { params := Config.params, state := none, seeded := false, requests := [], responses := [] }

end Sys2Proof.Machine
end

