-- ==== Sys2Proof/Machine/Flags.lean ====
section
/-!
DEFINITION. The block has no flags and no condition codes (spec/10_state.md R28). What reports the outcome of a command is
the STATUS field: its codes (spec/60_exceptions.md R107), and the conditions that choose a status other than OK.
-/
namespace Sys2Proof.Machine

/-- The value of the 3-bit STATUS field (R107). -/
def Status.code : Status → BitVec 3
  | .ok => 0
  | .absent => 1
  | .invalidRange => 2
  | .invalidBitWidth => 3
  | .notSeeded => 4
  | .illegalCommand => 5

/-- The condition of INVALID_RANGE for RANGEU: `OPA > OPB` as unsigned values (R81, R113). -/
def rangeuInvalid (min max : Word64) : Bool := decide (max.toNat < min.toNat)

/-- The condition of INVALID_RANGE for RANGES: `s64(OPA) > s64(OPB)` (R82, R113). -/
def rangesInvalid (min max : Word64) : Bool := decide (s64 max < s64 min)

/-- The valid widths of UNSIGNED and SIGNED: exactly 8, 16, 32 and 64, over the whole SIZE field (R7, R57, R114). -/
def widthValid (size : SizeField) : Bool := size == 8 || size == 16 || size == 32 || size == 64

end Sys2Proof.Machine
end

