-- ==== Sys2Proof/Machine/Floats.lean ====
section
/-!
DEFINITION. The float constructors of spec/41_derivation.md R85 and R87. Both are exact: no rounding occurs, and no flag is
raised (R84, R86).
-/
namespace Sys2Proof.Machine

/-- `F64(m)`: the binary64 pattern of `m * 2^-53` (R85): sign 0, exponent `p + 970` with `p` the index of the top set bit,
fraction `m` without that bit, left-aligned in 52 bits. -/
def f64 (m : BitVec 53) : Word64 :=
  if m = 0 then 0
  else
    let p := Nat.log2 m.toNat
    0#1 ++ BitVec.ofNat 11 (p + 970) ++ BitVec.ofNat 52 (m.toNat * 2 ^ (52 - p))

/-- `F32(m)`: the binary32 pattern of `m * 2^-24` (R87). -/
def f32 (m : BitVec 24) : BitVec 32 :=
  if m = 0 then 0
  else
    let p := Nat.log2 m.toNat
    0#1 ++ BitVec.ofNat 8 (p + 103) ++ BitVec.ofNat 23 (m.toNat * 2 ^ (23 - p))

end Sys2Proof.Machine
end

