-- ==== Sys2Proof/Machine/Params.lean ====
section
/-!
DEFINITION. The parameters `LCG_A` and `LCG_C` as 64-bit values (spec/00_scope.md R5), which pairs are admitted, and the three
configurations the spec names for test vectors only (R6).
-/
namespace Sys2Proof

/-- `LCG_A`: the free upper bits, then `01`, so that `LCG_A mod 4 = 1` (R5). -/
def Params.multiplier (p : Params) : Word64 := p.aHigh ++ 1#2

/-- `LCG_C`: the free upper bits, then `1`, so that `LCG_C mod 2 = 1` (R5). -/
def Params.increment (p : Params) : Word64 := p.cHigh ++ 1#1

/-- The configuration of a pair, refused where the pair violates a constraint of R5 ("A model shall refuse a
configuration that violates either constraint"). -/
def Params.ofPair (a c : Word64) : Option Params :=
  if a.toNat % 4 = 1 ∧ c.toNat % 2 = 1 then
    some { aHigh := a.extractLsb' 2 62, cHigh := c.extractLsb' 1 63 }
  else none

/-- `REF` (R6): `LCG_A = 0x5851F42D4C957F2D`, `LCG_C = 0x14057B7EF767814F`. For test vectors only. -/
def Params.ref : Params := { aHigh := 0x5851F42D4C957F2D >>> 2, cHigh := 0x14057B7EF767814F >>> 1 }

/-- `TOY` (R6): `LCG_A = 5`, `LCG_C = 1`. For test vectors only. -/
def Params.toy : Params := { aHigh := 1, cHigh := 0 }

/-- `UNIT` (R6): `LCG_A = 1`, `LCG_C = 1`. For test vectors only. -/
def Params.unit : Params := { aHigh := 0, cHigh := 0 }

end Sys2Proof
end

