-- ==== Sys2Proof/Machine/Ops.lean ====
section
/-!
DEFINITION. The operations that the meanings share: answering a command and raising an exception (spec/00_scope.md R10,
spec/60_exceptions.md R106 to R112), the draw (spec/00_scope.md R11), and the range mapping (spec/41_derivation.md R80).
-/
namespace Sys2Proof

/-- The transition of the state word: `u64(STATE * LCG_A + LCG_C)`, formed exactly and reduced once (00_scope R11,
40_core R75). The new state is also the draw. -/
def Params.transition (p : Params) (x : Word64) : Word64 :=
  Machine.u64 (x.toNat * p.multiplier.toNat + p.increment.toNat)

namespace Machine

/-- `respond(status, result)` (R10): the one response that ends a command stands last in the response channel (10_state R24:
"responses return in request order"). -/
def respond (status : Status) (result : Word64) (s : State) : State :=
  { s with responses := s.responses ++ [{ status := status, result := result }] }

/-- `raise E` (R10, 60_exceptions R106): the block's only exception. It is `respond(E, 0)` and writes nothing else (R108,
R109); nothing is saved and there is no return from it (R117, R118). -/
def raise (e : Status) (s : State) : Answer := .next (respond e 0 s)

/-- The second common check (R112): every command but SEED raises NOT_SEEDED while `SEEDED = 0` (R110). -/
def whenSeeded (command : State → Answer) (s : State) : Answer :=
  if s.seeded then command s else raise .notSeeded s

/-- A command that makes one draw `x` and answers `{OK, f x}`. The draw is written to `STATE` (R11); a read of the
unwritten `STATE` faults (93 I5). -/
def respondDraw (f : Word64 → Word64) (s : State) : Answer :=
  match s.state with
  | none => .fault .unwrittenStateRead
  | some x =>
    let y := s.params.transition x
    .next (respond .ok (f y) { s with state := some y })

/-- The threshold `t = 2^64 mod n` (R80). -/
def threshold (n : Nat) : Nat := 2 ^ 64 % n

/-- A draw is accepted when `lo64(x * n) >= t` (R80). -/
def accepted (n : Nat) (x : Word64) : Bool := decide (threshold n ≤ lo64 (x.toNat * n))

/-- The loop of R80: draw until a draw is accepted, and answer it. The intermediate states are not observable (00_scope R12),
so the loop passes the state word along. `fuel` bounds the draws. -/
def acceptedDraw (p : Params) (n : Nat) : (fuel : Nat) → Word64 → Option Word64
  | 0, _ => none
  | fuel + 1, x =>
    let y := p.transition x
    if accepted n y then some y else acceptedDraw p n fuel y

/-- The number of 64-bit states. The draws are a function of the state word, so a loop that has rejected this many draws
has met a state twice and never ends (log entry 7). -/
def wholePeriod : Nat := 2 ^ 64

/-- `RangeMap(lo, span)` from the state word `x` (R80): the new state word, and the value `u64(lo + hi64(x' * n))` of the
accepted draw `x'`. `n = span + 1` is an exact integer, up to 2^64. -/
def rangeMap (p : Params) (lo span x : Word64) : Option (Word64 × Word64) :=
  let n := span.toNat + 1
  match acceptedDraw p n wholePeriod x with
  | none => none
  | some y => some (y, u64 (lo.toNat + hi64 (y.toNat * n)))

/-- A command that answers `{OK, RangeMap(lo, span)}` (R81, R82, R101). -/
def respondRange (lo span : Word64) (s : State) : Answer :=
  match s.state with
  | none => .fault .unwrittenStateRead
  | some x =>
    match rangeMap s.params lo span x with
    | none => .fault .rejectionEndless
    | some (y, v) => .next (respond .ok v { s with state := some y })

end Machine
end Sys2Proof
end

