-- ==== Sys2Proof/Machine/Derivation.lean ====
section
/-!
DEFINITION. The commands of the random-value derivation unit (spec/41_derivation.md): RANGEU, RANGES, FLOAT64, FLOAT32, BOOL,
UNSIGNED, SIGNED. Each makes its own check after NOT_SEEDED and before its first draw (spec/60_exceptions.md R109, R112).
-/
namespace Sys2Proof.Machine

/-- RANGEU (R81): INVALID_RANGE if min > max as unsigned values, else `RangeMap(min, max - min)`. -/
def execRangeU (min max : Word64) (s : State) : Answer :=
  whenSeeded (fun s => if rangeuInvalid min max then raise .invalidRange s else respondRange min (spanOf min max) s) s

/-- RANGES (R82): INVALID_RANGE if min > max as signed values, else `RangeMap(min, u64(max - min))`. -/
def execRangeS (min max : Word64) (s : State) : Answer :=
  whenSeeded (fun s => if rangesInvalid min max then raise .invalidRange s else respondRange min (spanOf min max) s) s

/-- FLOAT64 (R84): the binary64 pattern of the draw's top 53 bits times 2^-53. -/
def execFloat64 (s : State) : Answer := whenSeeded (respondDraw fun x => f64 (topBits 53 x)) s

/-- FLOAT32 (R86): the binary32 pattern of the top 24 bits of the draw's top 32-bit slice times 2^-24, zero-extended. -/
def execFloat32 (s : State) : Answer := whenSeeded (respondDraw fun x => zext64 (f32 (top24 (topBits 32 x)))) s

/-- BOOL (R88): bit 63 of the draw. -/
def execBool (s : State) : Answer := whenSeeded (respondDraw fun x => zext64 (topBits 1 x)) s

/-- UNSIGNED (R89): INVALID_BIT_WIDTH unless the width is valid, else the draw's top SIZE bits, zero-extended. -/
def execUnsigned (size : SizeField) (s : State) : Answer :=
  whenSeeded (fun s =>
    if widthValid size then respondDraw (fun x => zext64 (topBits size.toNat x)) s else raise .invalidBitWidth s) s

/-- SIGNED (R90): INVALID_BIT_WIDTH unless the width is valid, else the draw's top SIZE bits, sign-extended. -/
def execSigned (size : SizeField) (s : State) : Answer :=
  whenSeeded (fun s =>
    if widthValid size then respondDraw (fun x => sext64 (topBits size.toNat x)) s else raise .invalidBitWidth s) s

end Sys2Proof.Machine
end

