-- ==== Sys2Proof/Machine/Engine.lean ====
section
/-!
DEFINITION. The commands of the state-transition engine (spec/40_core.md): SEED and NEXT.
-/
namespace Sys2Proof.Machine

/-- SEED (R71): `STATE <- OPA`, `SEEDED <- 1`, `respond(OK, 0)`. It makes no check of `SEEDED`. -/
def execSeed (seed : Word64) (s : State) : Answer :=
  .next (respond .ok 0 { s with state := some seed, seeded := true })

/-- NEXT (R72): one draw, answered whole. -/
def execNext (s : State) : Answer := whenSeeded (respondDraw fun x => x) s

end Sys2Proof.Machine
end

