-- ==== Sys2Proof/Machine/Selection.lean ====
section
/-!
DEFINITION. The command of the selection helper (spec/42_selection.md): PICK.
-/
namespace Sys2Proof.Machine

/-- PICK (R101): `{NONE, 0}` for an empty sequence, without a draw; else `RangeMap(0, length - 1)`. -/
def execPick (length : Word64) (s : State) : Answer :=
  whenSeeded (fun s => if length = 0 then raise .absent s else respondRange 0 (length - 1) s) s

end Sys2Proof.Machine
end

