-- ==== Sys2Proof/Machine/Dispatch.lean ====
section
/-!
DEFINITION. The meaning of each command (spec/60_exceptions.md R112, "run the rule of d").
-/
namespace Sys2Proof.Machine

/-- The meaning of a command whose request has been taken from the channel. -/
def exec (i : Instr) (s : State) : Host.Outcome State Fault Refusal :=
  match i with
  | .seed seed => Sys2Proof.Machine.execSeed seed s
  | .next => Sys2Proof.Machine.execNext s
  | .rangeu min max => Sys2Proof.Machine.execRangeU min max s
  | .ranges min max => Sys2Proof.Machine.execRangeS min max s
  | .float64 => Sys2Proof.Machine.execFloat64 s
  | .float32 => Sys2Proof.Machine.execFloat32 s
  | .bool => Sys2Proof.Machine.execBool s
  | .unsigned size => Sys2Proof.Machine.execUnsigned size s
  | .signed size => Sys2Proof.Machine.execSigned size s
  | .pick length => Sys2Proof.Machine.execPick length s

end Sys2Proof.Machine
end

