-- ==== Sys2Proof/Machine/Step.lean ====
section
/-!
DEFINITION. One step of the machine: one command, whole (spec/00_scope.md R12, spec/20_memory.md R38).
-/
namespace Sys2Proof.Machine

/-- `perform(CMD, OPA, OPB)` (60_exceptions R112): an illegal word raises ILLEGAL_COMMAND before any other check. -/
def perform (r : Request) (s : State) : Answer :=
  match decode r with
  | .illegal _ => raise .illegalCommand s
  | .legal i => exec i s

/-- One step: the block takes the next request from its channel and performs it. With no request it idles and keeps its
state (60_exceptions R125, log entry 6). -/
def step (s : State) : Host.Outcome State Fault Refusal :=
  match s.requests with
  | [] => .next s
  | r :: rest => perform r { s with requests := rest }

/-- The state in which the very next step performs the request whose table bits are `w` (log entry 8): it stands first
in the request channel. Nothing else changes. -/
def State.withFetchWord (s : State) (nbits w : Nat) : State :=
  { s with requests := requestOfTableBits nbits w :: s.requests }

end Sys2Proof.Machine
end

