-- ==== Sys2Proof/WellFormed.lean ====
section
/-!
DEFINITION. Well-formedness. An `Instr` is well formed by its types. What can be ill formed is an assembler command, whose
operands are integers of any size: spec/30_encoding.md R58 says which an assembler shall reject.
-/
namespace Sys2Proof

/-- One line of the assembler (30_encoding R58): a mnemonic with its literal operands. Literals are not negative, but
RANGES accepts negative ones. -/
inductive Source where
  | seed (seed : Nat)
  | next
  | rangeu (min max : Nat)
  | ranges (min max : Int)
  | float64
  | float32
  | bool
  | unsigned (size : Nat)
  | signed (size : Nat)
  | pick (length : Nat)
deriving DecidableEq, Repr

/-- A literal that a 64-bit operand word holds as an unsigned value: 0 to 2^64-1 (R58). -/
def fitsUnsigned64 (v : Nat) : Bool := decide (v < 2 ^ 64)

/-- A literal that a 64-bit operand word holds as a signed value: -2^63 to 2^63-1 (R58). -/
def fitsSigned64 (v : Int) : Bool := decide (-(2 ^ 63) ≤ v) && decide (v < 2 ^ 63)

/-- A literal that the SIZE field holds: at most 255 (R58). -/
def fitsSize (v : Nat) : Bool := decide (v < 256)

/-- What the assembler accepts (R58). R58 names no limit for the operand of SEED, whose word is 64 bits wide (R53): a
larger literal has no encoding and is rejected too (log entry 10, DEDUCED, safe). -/
def Source.wellFormed : Source → Bool
  | .seed v => fitsUnsigned64 v
  | .next => true
  | .rangeu lo hi => fitsUnsigned64 lo && fitsUnsigned64 hi
  | .ranges lo hi => fitsSigned64 lo && fitsSigned64 hi
  | .float64 => true
  | .float32 => true
  | .bool => true
  | .unsigned n => fitsSize n
  | .signed n => fitsSize n
  | .pick n => fitsUnsigned64 n

end Sys2Proof
end

