-- ==== Sys2Proof/Machine/Assembler.lean ====
section
/-!
DEFINITION. The assembler of spec/30_encoding.md R58: a line of text to an assembler command, the command to its request, and the
listing of a request as three hexadecimal words. It is the host's tool; the block sees requests only.
-/
namespace Sys2Proof

/-- The request of an assembler command (R58), none where the assembler shall reject it. Signed operands are encoded as
their 64-bit two's-complement pattern. -/
def Source.assemble (c : Source) : Option Request :=
  if c.wellFormed then
    some <| encode <| match c with
      | .seed v => .seed (BitVec.ofNat 64 v)
      | .next => .next
      | .rangeu lo hi => .rangeu (BitVec.ofNat 64 lo) (BitVec.ofNat 64 hi)
      | .ranges lo hi => .ranges (BitVec.ofInt 64 lo) (BitVec.ofInt 64 hi)
      | .float64 => .float64
      | .float32 => .float32
      | .bool => .bool
      | .unsigned n => .unsigned (BitVec.ofNat 8 n)
      | .signed n => .signed (BitVec.ofNat 8 n)
      | .pick n => .pick (BitVec.ofNat 64 n)
  else none

namespace Assembler

/-- The value of a hexadecimal digit, a capital or a small letter. R8 and R58 say nothing of the letter case: DESIGN CHOICE
(log entry 10, safe). -/
def hexDigitValue (c : Char) : Option Nat :=
  if '0'.toNat ≤ c.toNat ∧ c.toNat ≤ '9'.toNat then some (c.toNat - '0'.toNat)
  else if 'A'.toNat ≤ c.toNat ∧ c.toNat ≤ 'F'.toNat then some (c.toNat - 'A'.toNat + 10)
  else if 'a'.toNat ≤ c.toNat ∧ c.toNat ≤ 'f'.toNat then some (c.toNat - 'a'.toNat + 10)
  else none

/-- The value of a string of digits in a base, after the digits already read. -/
def digitsValue (base : Nat) : List Char → Nat → Option Nat
  | [], value => some value
  | c :: rest, value =>
    match hexDigitValue c with
    | none => none
    | some d => if d < base then digitsValue base rest (value * base + d) else none

/-- A decimal literal, or a hexadecimal one written `0x...` with `_` as a digit separator (R8, R58). Where a `_` may stand the
spec does not say: every one after `0x` is dropped, also before the first digit, after the last, or doubled (DESIGN CHOICE,
log entry 10, safe). -/
def literal (text : List Char) : Option Nat :=
  match text with
  | [] => none
  | '0' :: 'x' :: digits =>
    match digits.filter (fun c => c ≠ '_') with
    | [] => none
    | d :: ds => digitsValue 16 (d :: ds) 0
  | digits => digitsValue 10 digits 0

/-- A literal of RANGES: a negative decimal one, too (R58). A hexadecimal one is its value, not a pattern (DEDUCED, log
entry 10, safe). -/
def signedLiteral (text : List Char) : Option Int :=
  match text with
  | '-' :: d :: ds => (digitsValue 10 (d :: ds) 0).map fun v => -(v : Int)
  | t => (literal t).map fun v => (v : Int)

/-- The text without the blanks around it: space characters only (DESIGN CHOICE, log entry 10, safe). -/
def trimmed (text : List Char) : List Char :=
  ((text.dropWhile fun c => c = ' ').reverse.dropWhile fun c => c = ' ').reverse

/-- The operands of a line: separated by commas (R58). -/
def operands (text : List Char) : List (List Char) :=
  match trimmed text with
  | [] => []
  | c :: cs => ((c :: cs).splitOn ',').map trimmed

/-- A command without operands. -/
def plain (c : Source) (args : List (List Char)) : Option Source :=
  match args with
  | [] => some c
  | _ :: _ => none

/-- A command with one operand that is not negative. -/
def unary (c : Nat → Source) (args : List (List Char)) : Option Source :=
  match args with
  | [a] => (literal a).map c
  | [] | _ :: _ :: _ => none

/-- A command with two operands read by one reader. -/
def binary {α : Type} (read : List Char → Option α) (c : α → α → Source) (args : List (List Char)) : Option Source :=
  match args with
  | [a, b] => match read a, read b with
    | some x, some y => some (c x y)
    | none, _ | _, none => none
  | [] | [_] | _ :: _ :: _ :: _ => none

/-- One line of assembly (R58): the mnemonic, then its operands. How blanks may stand, and that mnemonics are in
capitals, is a DESIGN CHOICE (log entry 10, safe). -/
def readLine (line : List Char) : Option Source :=
  let text := trimmed line
  let mnemonic := text.takeWhile fun c => c ≠ ' '
  let args := operands (text.drop mnemonic.length)
  if mnemonic = ['S', 'E', 'E', 'D'] then unary .seed args
  else if mnemonic = ['N', 'E', 'X', 'T'] then plain .next args
  else if mnemonic = ['R', 'A', 'N', 'G', 'E', 'U'] then binary literal .rangeu args
  else if mnemonic = ['R', 'A', 'N', 'G', 'E', 'S'] then binary signedLiteral .ranges args
  else if mnemonic = ['F', 'L', 'O', 'A', 'T', '6', '4'] then plain .float64 args
  else if mnemonic = ['F', 'L', 'O', 'A', 'T', '3', '2'] then plain .float32 args
  else if mnemonic = ['B', 'O', 'O', 'L'] then plain .bool args
  else if mnemonic = ['U', 'N', 'S', 'I', 'G', 'N', 'E', 'D'] then unary .unsigned args
  else if mnemonic = ['S', 'I', 'G', 'N', 'E', 'D'] then unary .signed args
  else if mnemonic = ['P', 'I', 'C', 'K'] then unary .pick args
  else none

/-- A hexadecimal digit in capitals, as the spec's listings have them (log entry 10). -/
def hexDigit (d : Nat) : Char := if d < 10 then Char.ofNat ('0'.toNat + d) else Char.ofNat ('A'.toNat + (d - 10))

/-- The `k` lowest hexadecimal digits of a value, the highest first. -/
def hexWord (k v : Nat) : List Char := (List.range k).reverse.map fun i => hexDigit (v / 16 ^ i % 16)

/-- The listing of an encoded command: the three words `CMD OPA OPB` (R58). -/
def listing (r : Request) : List Char :=
  hexWord 4 r.cmd.toNat ++ [' '] ++ hexWord 16 r.opa.toNat ++ [' '] ++ hexWord 16 r.opb.toNat

end Assembler
end Sys2Proof
end

