-- ==== Sys2Proof/Machine/HostSide.lean ====
section
/-!
DEFINITION. What the world outside the block does to it (spec/10_state.md R24, spec/70_reset_and_hazards.md R130, R133), and the
host's half of the source's operations (spec/30_encoding.md R59, spec/42_selection.md R102). Nothing here is performed by the
block.
-/
namespace Sys2Proof

namespace Machine

/-- A host presents a request: it waits behind those already presented (10_state R24, 20_memory R38). -/
def presentRequest (r : Request) (s : State) : State := { s with requests := s.requests ++ [r] }

/-- The host takes the oldest response; none is pending on an idle channel (R24). -/
def takeResponse (s : State) : Option (Response × State) :=
  match s.responses with
  | [] => none
  | r :: rest => some (r, { s with responses := rest })

/-- The reset event (70_reset R130): `SEEDED <- 0`, `STATE` unwritten, a command in progress abandoned with no response, both
channels idle; the parameters stay (log entry 9). -/
def resetEvent (s : State) : State :=
  { params := s.params, state := none, seeded := false, requests := [], responses := [] }

/-- The host's half of `pick_random` (42_selection R102): on `{OK, r}` element `r` of the sequence, on NONE absence. Any
other status names no element (log entry 12). -/
def hostReference {α : Type} (sequence : List α) (r : Response) : Option α :=
  match r.status with
  | .ok => sequence[r.result.toNat]?
  | .absent | .invalidRange | .invalidBitWidth | .notSeeded | .illegalCommand => none

/-- The eight bytes of a RESULT in the host's own memory, lowest address first, in the host's byte order (20_memory R37,
log entry 11). -/
def hostBytes (order : ByteOrder) (result : Word64) : List (BitVec 8) :=
  let little := (List.range 8).map fun i => result.extractLsb' (8 * i) 8
  match order with
  | .littleEndian => little
  | .bigEndian => little.reverse

end Machine

/-- The source's operations (30_encoding R59), with the host's integers as arguments. -/
inductive HostOperation where
  | construct (seed : Nat)
  /-- The host's time source gave `time`: any 64-bit value (40_core R73, 93 I10). -/
  | constructFromTime (time : Word64)
  | genRangeUnsigned (min max : Nat)
  | genRangeSigned (min max : Int)
  | genFloat
  | genF32
  | genBool
  | genUnsigned (size : Nat)
  | genSigned (size : Nat)
  /-- Only the length of the host's sequence reaches the block (20_memory R36). -/
  | pickRandom (length : Nat)
deriving DecidableEq, Repr

/-- The expansions of R59. -/
def HostOperation.expansion : HostOperation → Source
  | .construct seed => .seed seed
  | .constructFromTime time => .seed time.toNat
  | .genRangeUnsigned lo hi => .rangeu lo hi
  | .genRangeSigned lo hi => .ranges lo hi
  | .genFloat => .float64
  | .genF32 => .float32
  | .genBool => .bool
  | .genUnsigned size => .unsigned size
  | .genSigned size => .signed size
  | .pickRandom length => .pick length

end Sys2Proof
end

