-- ==== Sys2Proof/Safety.lean ====
section
/-!
DEFINITION. What counts as a safe state and run, in the terms the statements use, and how a float result is read.
-/
namespace Sys2Proof

/-- The state word after `k` draws from `x`, in arithmetic that wraps at each step (spec/40_core.md R75); for `k ≥ 1` it is
the k-th draw. It is written apart from the machine's own transition, so that a statement can compare the two. -/
def Params.orbit (p : Params) (x : Word64) : Nat → Word64
  | 0 => x
  | k + 1 => p.orbit x k * p.multiplier + p.increment

namespace Machine

/-- The invariant of the machine: `SEEDED = 1` exactly when `STATE` holds a value (spec/10_state.md R21, R22, R32), and a
response whose STATUS is not OK has RESULT 0 (spec/60_exceptions.md R108). -/
abbrev State.Inv (s : State) : Prop :=
  s.seeded = s.state.isSome ∧ ∀ r ∈ s.responses, r.status ≠ .ok → r.result = 0

/-- A response stands on the channel after a step that was not there before: the step's one response (R24). -/
abbrev State.Answers (s s' : State) (r : Response) : Prop := s'.responses = s.responses ++ [r]

/-- The exact value of a finite binary64 pattern: sign bit 63, exponent bits 62:52 with bias 1023, fraction bits 51:0
(spec/41_derivation.md R85, spec/93_implementation_defined.md K7, log entry 14). -/
def binary64Value (w : Word64) : ℚ :=
  let exponent := (w.extractLsb' 52 11).toNat
  let fraction := (w.extractLsb' 0 52).toNat
  let magnitude : ℚ :=
    if exponent = 0 then fraction / 2 ^ 1074 else (2 ^ 52 + fraction) * 2 ^ exponent / 2 ^ 1075
  if w.getLsbD 63 then -magnitude else magnitude

/-- The exact value of a finite binary32 pattern: sign bit 31, exponent bits 30:23 with bias 127, fraction bits 22:0
(spec/41_derivation.md R87, spec/93_implementation_defined.md K8, log entry 14). -/
def binary32Value (w : BitVec 32) : ℚ :=
  let exponent := (w.extractLsb' 23 8).toNat
  let fraction := (w.extractLsb' 0 23).toNat
  let magnitude : ℚ :=
    if exponent = 0 then fraction / 2 ^ 149 else (2 ^ 23 + fraction) * 2 ^ exponent / 2 ^ 150
  if w.getLsbD 31 then -magnitude else magnitude

end Machine
end Sys2Proof
end

