-- ==== Sys2Proof/Certificates/Slice0/Obligations.lean ====
section
/-!
DEFINITION. What is claimed of the model, for the provers. Each statement says which rule of the spec it formalises. A next state
is written out whole, so each such statement is also its command's frame: every field not named in the record is as before.
How the two channels of 10_state R24 are held, as lists, is log entries 4 and 5.
-/
open Sys2Proof Sys2Proof.Machine

/-! ### Parameters, reset and lifecycle -/

/-- R5: the parameters are two 64-bit values with `LCG_A mod 4 = 1` and `LCG_C mod 2 = 1`, a pair that violates either is
refused, and no command and no step changes them. -/
def Obligations.ParametersAdmittedAndFixed : Prop :=
  (∀ p : Params, p.multiplier.toNat % 4 = 1 ∧ p.increment.toNat % 2 = 1) ∧
  (∀ a c : Word64, (Params.ofPair a c).isSome = true ↔ a.toNat % 4 = 1 ∧ c.toNat % 2 = 1) ∧
  (∀ (a c : Word64) (p : Params), Params.ofPair a c = some p → p.multiplier = a ∧ p.increment = c) ∧
  (∀ (i : Instr) (s t : State), exec i s = .next t → t.params = s.params) ∧
  (∀ s t : State, step s = .next t → t.params = s.params)

/-- R32: after reset `SEEDED` is 0, `STATE` is unwritten and both channels are idle, and the parameters are those of the
instance; no command can observe `STATE`, since
each that would read it answers NOT_SEEDED. -/
def Obligations.ResetHoldsNoGenerator : Prop :=
  State.reset.seeded = false ∧ State.reset.state = none ∧ State.reset.requests = [] ∧ State.reset.responses = [] ∧
  State.reset.params = Config.params ∧
  ∀ i : Instr, (∀ v, i ≠ .seed v) →
    exec i State.reset = .next { State.reset with responses := [⟨.notSeeded, 0⟩] }

/-- R130: the reset event clears `SEEDED`, leaves `STATE` unwritten and the channels idle, and keeps the parameters. An
abandoned command has no response and no further effect, however long the block runs on. That the reset event is an
operation beside the step, and that the block idles by keeping its state, are the model's choices (log entries 9 and 6). -/
def Obligations.ResetAbandonsTheCommandInProgress : Prop :=
  ∀ s : State,
    (resetEvent s).seeded = false ∧ (resetEvent s).state = none ∧
    (resetEvent s).requests = [] ∧ (resetEvent s).responses = [] ∧ (resetEvent s).params = s.params ∧
    ∀ k : Nat, core.run k (resetEvent s) = .next (resetEvent s)

/-- R131 (with R110): until the first SEED every other command is answered {NOT_SEEDED, 0}, an illegal word is answered
{ILLEGAL_COMMAND, 0}, and neither changes anything else. -/
def Obligations.UnseededBlockAnswersNotSeeded : Prop :=
  ∀ (s : State) (r : Request) (rest : List Request),
    s.seeded = false → s.requests = r :: rest →
    (∀ i, decode r = .legal i → (∀ v, i ≠ .seed v) →
      step s = .next { s with requests := rest, responses := s.responses ++ [⟨.notSeeded, 0⟩] }) ∧
    (∀ why, decode r = .illegal why →
      step s = .next { s with requests := rest, responses := s.responses ++ [⟨.illegalCommand, 0⟩] })

/-- R22: SEED sets `SEEDED`, no command clears it, only a SEED sets it and only reset clears it; while it is 0 every other command
is refused with NOT_SEEDED. That reset is an operation beside the step is the model's choice (log entry 9). -/
def Obligations.OnlySeedCreatesTheGenerator : Prop :=
  (∀ (v : Word64) (s : State), ∃ t, exec (.seed v) s = .next t ∧ t.seeded = true) ∧
  (∀ s t : State, step s = .next t → s.seeded = true → t.seeded = true) ∧
  (∀ s t : State, step s = .next t → s.seeded = false → t.seeded = true →
    ∃ r rest, s.requests = r :: rest ∧ r.cmd = 0x0001) ∧
  (∀ s : State, (resetEvent s).seeded = false) ∧
  (∀ (i : Instr) (s : State), s.seeded = false → (∀ v, i ≠ .seed v) →
    exec i s = .next { s with responses := s.responses ++ [⟨.notSeeded, 0⟩] })

/-- R133 (reset as an operation is log entry 9): released from reset and given `SEED s`, the block holds the generator of that seed: one step, one response. -/
def Obligations.BootIsResetThenSeed : Prop :=
  ∀ (s : State) (v : Word64),
    step (presentRequest (encode (.seed v)) (resetEvent s)) =
      .next { params := s.params, state := some v, seeded := true, requests := [], responses := [⟨.ok, 0⟩] }

/-! ### Encoding -/

/-- R54, R58, R25: decode and encode agree in both directions: every command is read back from its request, and a word
has one meaning: a request that decodes is the request of its command, but for operand words the command ignores. -/
def Obligations.DecodeAndEncodeAgree : Prop :=
  (∀ i : Instr, decode (encode i) = .legal i) ∧
  (∀ (r : Request) (i : Instr), decode r = .legal i →
    (encode i).cmd = r.cmd ∧
    (encode i).opa = (match i with
      | .seed _ | .rangeu _ _ | .ranges _ _ | .pick _ => r.opa
      | .next | .float64 | .float32 | .bool | .unsigned _ | .signed _ => 0) ∧
    (encode i).opb = (match i with
      | .rangeu _ _ | .ranges _ _ => r.opb
      | .seed _ | .pick _ | .next | .float64 | .float32 | .bool | .unsigned _ | .signed _ => 0))

/-- R55, R54: the decode procedure on every command word, its fields taken as numbers of the word; a command that decodes as
Illegal is refused with ILLEGAL_COMMAND. Which reason each illegal word is given is the model's choice (log entry 17): the spec
answers Illegal alone. -/
def Obligations.DecodeProcedureIsTotal : Prop :=
  ∀ r : Request,
    (r.cmd.toNat % 16 = 0 ∨ 0xA < r.cmd.toNat % 16 → decode r = .illegal .reservedOpcode) ∧
    (1 ≤ r.cmd.toNat % 16 → r.cmd.toNat % 16 ≤ 0xA → r.cmd.toNat / 16 % 16 ≠ 0 → decode r = .illegal .reservedBits) ∧
    (1 ≤ r.cmd.toNat % 16 → r.cmd.toNat % 16 ≤ 0xA → r.cmd.toNat / 16 % 16 = 0 → r.cmd.toNat / 256 ≠ 0 →
      r.cmd.toNat % 16 ≠ 0x8 → r.cmd.toNat % 16 ≠ 0x9 → decode r = .illegal .misplacedSize) ∧
    (r.cmd = 0x0001 → decode r = .legal (.seed r.opa)) ∧
    (r.cmd = 0x0002 → decode r = .legal .next) ∧
    (r.cmd = 0x0003 → decode r = .legal (.rangeu r.opa r.opb)) ∧
    (r.cmd = 0x0004 → decode r = .legal (.ranges r.opa r.opb)) ∧
    (r.cmd = 0x0005 → decode r = .legal .float64) ∧
    (r.cmd = 0x0006 → decode r = .legal .float32) ∧
    (r.cmd = 0x0007 → decode r = .legal .bool) ∧
    (r.cmd.toNat % 256 = 0x08 → decode r = .legal (.unsigned (BitVec.ofNat 8 (r.cmd.toNat / 256)))) ∧
    (r.cmd.toNat % 256 = 0x09 → decode r = .legal (.signed (BitVec.ofNat 8 (r.cmd.toNat / 256)))) ∧
    (r.cmd = 0x000A → decode r = .legal (.pick r.opa)) ∧
    (∀ (why : IllegalReason) (s : State), decode r = .illegal why →
      perform r s = .next { s with responses := s.responses ++ [⟨.illegalCommand, 0⟩] })

/-- R54: the decode procedure and the opcode table agree: a word is legal exactly when a row of the table holds it, that row
is the row of the command read, and no word belongs to two rows. -/
def Obligations.OpcodeTableAgreesWithDecode : Prop :=
  (∀ r : Request, (∃ i, decode r = .legal i) ↔ ∃ row ∈ opcodeTable, row.holds r.cmd = true) ∧
  (∀ (r : Request) (i : Instr), decode r = .legal i → (rowOf i).holds r.cmd = true) ∧
  opcodeTable.Pairwise (fun a b => ∀ cmd, ¬(a.holds cmd = true ∧ b.holds cmd = true))

/-- R56, R111: the illegal words, and no others, are answered {ILLEGAL_COMMAND, 0}, whatever `SEEDED` and the operands are,
with no change to `STATE` or `SEEDED`. -/
def Obligations.IllegalWordsAreRefused : Prop :=
  ∀ (s : State) (r : Request) (rest : List Request), s.requests = r :: rest →
    (r.cmd.toNat % 16 = 0 ∨ 0xA < r.cmd.toNat % 16 ∨ r.cmd.toNat / 16 % 16 ≠ 0 ∨
        (r.cmd.toNat / 256 ≠ 0 ∧ r.cmd.toNat % 16 ≠ 0x8 ∧ r.cmd.toNat % 16 ≠ 0x9) →
      step s = .next { s with requests := rest, responses := s.responses ++ [⟨.illegalCommand, 0⟩] }) ∧
    (∀ t, step s = .next t → s.Answers t ⟨.illegalCommand, 0⟩ →
      r.cmd.toNat % 16 = 0 ∨ 0xA < r.cmd.toNat % 16 ∨ r.cmd.toNat / 16 % 16 ≠ 0 ∨
        (r.cmd.toNat / 256 ≠ 0 ∧ r.cmd.toNat % 16 ≠ 0x8 ∧ r.cmd.toNat % 16 ≠ 0x9))

/-- R57: every SIZE decodes; 8, 16, 32 and 64 are valid widths, every other value is refused with INVALID_BIT_WIDTH. -/
def Obligations.EverySizeDecodes : Prop :=
  ∀ (n : SizeField) (opa opb : Word64),
    decode ⟨n ++ 0x08#8, opa, opb⟩ = .legal (.unsigned n) ∧
    decode ⟨n ++ 0x09#8, opa, opb⟩ = .legal (.signed n) ∧
    ∀ (s : State) (x : Word64), s.seeded = true → s.state = some x →
      (n.toNat = 8 ∨ n.toNat = 16 ∨ n.toNat = 32 ∨ n.toNat = 64 →
        (∃ t v, exec (.unsigned n) s = .next t ∧ s.Answers t ⟨.ok, v⟩) ∧
        (∃ t v, exec (.signed n) s = .next t ∧ s.Answers t ⟨.ok, v⟩)) ∧
      (n.toNat ≠ 8 → n.toNat ≠ 16 → n.toNat ≠ 32 → n.toNat ≠ 64 →
        exec (.unsigned n) s = .next { s with responses := s.responses ++ [⟨.invalidBitWidth, 0⟩] } ∧
        exec (.signed n) s = .next { s with responses := s.responses ++ [⟨.invalidBitWidth, 0⟩] })

/-- R25: a command ignores an operand it does not read: only RANGEU and RANGES depend on `OPB`, only these, SEED and PICK
depend on `OPA`. What these read, they read whole. -/
def Obligations.UnreadOperandsAreIgnored : Prop :=
  (∀ opa opb : Word64, decode ⟨0x0001, opa, opb⟩ = .legal (.seed opa) ∧
    decode ⟨0x0003, opa, opb⟩ = .legal (.rangeu opa opb) ∧ decode ⟨0x0004, opa, opb⟩ = .legal (.ranges opa opb) ∧
    decode ⟨0x000A, opa, opb⟩ = .legal (.pick opa)) ∧
  ∀ (s : State) (cmd : CmdWord) (opa opa' opb opb' : Word64) (rest : List Request),
    (cmd ≠ 0x0003 → cmd ≠ 0x0004 →
      step { s with requests := ⟨cmd, opa, opb⟩ :: rest } = step { s with requests := ⟨cmd, opa, opb'⟩ :: rest }) ∧
    (cmd ≠ 0x0001 → cmd ≠ 0x0003 → cmd ≠ 0x0004 → cmd ≠ 0x000A →
      step { s with requests := ⟨cmd, opa, opb⟩ :: rest } = step { s with requests := ⟨cmd, opa', opb'⟩ :: rest })

/-- R54, V6: words written out bit by bit from the spec's patterns decode to the commands they stand for. The reasons
of the illegal ones are the model's choice (log entry 17). -/
def Obligations.WrittenWordsDecode : Prop :=
  decode ⟨0b0000000000000001, 0x2A, 0⟩ = .legal (.seed 0x2A) ∧
  decode ⟨0b0000000000000011, 1, 6⟩ = .legal (.rangeu 1 6) ∧
  decode ⟨0b0010000000001000, 0, 0⟩ = .legal (.unsigned 32) ∧
  decode ⟨0b0000000000001010, 3, 0⟩ = .legal (.pick 3) ∧
  decode ⟨0b0000000000000000, 0, 0⟩ = .illegal .reservedOpcode ∧
  decode ⟨0b0000000000010010, 0, 0⟩ = .illegal .reservedBits ∧
  decode ⟨0b0000100000000010, 0, 0⟩ = .illegal .misplacedSize

/-- R58: the assembler's table. Each command with its operands in range has the request of its row, which decodes to the command
with operands of the same value, negative ones as their two's-complement pattern, and with 0 in an operand word the command
ignores. A size above 255, a RANGEU or PICK operand outside 0 to 2^64-1 and a RANGES operand outside -2^63 to 2^63-1 are
rejected. That a SEED operand outside 0 to 2^64-1 is rejected is the model's inference (log entry 10). -/
def Obligations.AssemblerEncodesItsOperands : Prop :=
  (∀ v : Nat, v < 2 ^ 64 → ∃ w, (Source.seed v).assemble = some ⟨0x0001, w, 0⟩ ∧
    decode ⟨0x0001, w, 0⟩ = .legal (.seed w) ∧ w.toNat = v) ∧
  (Source.next.assemble = some ⟨0x0002, 0, 0⟩ ∧ decode ⟨0x0002, 0, 0⟩ = .legal .next) ∧
  (∀ lo hi : Nat, lo < 2 ^ 64 → hi < 2 ^ 64 → ∃ a b, (Source.rangeu lo hi).assemble = some ⟨0x0003, a, b⟩ ∧
    decode ⟨0x0003, a, b⟩ = .legal (.rangeu a b) ∧ a.toNat = lo ∧ b.toNat = hi) ∧
  (∀ lo hi : Int, -2 ^ 63 ≤ lo → lo < 2 ^ 63 → -2 ^ 63 ≤ hi → hi < 2 ^ 63 →
    ∃ a b, (Source.ranges lo hi).assemble = some ⟨0x0004, a, b⟩ ∧
      decode ⟨0x0004, a, b⟩ = .legal (.ranges a b) ∧ a.toInt = lo ∧ b.toInt = hi) ∧
  (Source.float64.assemble = some ⟨0x0005, 0, 0⟩ ∧ decode ⟨0x0005, 0, 0⟩ = .legal .float64) ∧
  (Source.float32.assemble = some ⟨0x0006, 0, 0⟩ ∧ decode ⟨0x0006, 0, 0⟩ = .legal .float32) ∧
  (Source.bool.assemble = some ⟨0x0007, 0, 0⟩ ∧ decode ⟨0x0007, 0, 0⟩ = .legal .bool) ∧
  (∀ n : Nat, n < 256 → ∃ w : SizeField, w.toNat = n ∧
    (Source.unsigned n).assemble = some ⟨w ++ 0x08#8, 0, 0⟩ ∧ decode ⟨w ++ 0x08#8, 0, 0⟩ = .legal (.unsigned w) ∧
    (Source.signed n).assemble = some ⟨w ++ 0x09#8, 0, 0⟩ ∧ decode ⟨w ++ 0x09#8, 0, 0⟩ = .legal (.signed w)) ∧
  (∀ n : Nat, n < 2 ^ 64 → ∃ w, (Source.pick n).assemble = some ⟨0x000A, w, 0⟩ ∧
    decode ⟨0x000A, w, 0⟩ = .legal (.pick w) ∧ w.toNat = n) ∧
  (∀ v : Nat, 2 ^ 64 ≤ v → (Source.seed v).assemble = none ∧ (Source.pick v).assemble = none) ∧
  (∀ lo hi : Nat, 2 ^ 64 ≤ lo ∨ 2 ^ 64 ≤ hi → (Source.rangeu lo hi).assemble = none) ∧
  (∀ lo hi : Int, lo < -2 ^ 63 ∨ 2 ^ 63 ≤ lo ∨ hi < -2 ^ 63 ∨ 2 ^ 63 ≤ hi → (Source.ranges lo hi).assemble = none) ∧
  (∀ n : Nat, 256 ≤ n → (Source.unsigned n).assemble = none ∧ (Source.signed n).assemble = none) ∧
  (∀ c : Source, c.assemble.isSome = c.wellFormed)

/-! ### The step -/

/-- R38, R112: a step takes the next request and runs the command it decodes to, in a state that differs only in the request
taken; an illegal word is refused; with no request the block keeps its state (R125; that idling is a step is the model's
choice, log entry 6). -/
def Obligations.StepPerformsTheDecodedCommand : Prop :=
  (∀ (s : State) (r : Request) (rest : List Request) (i : Instr), s.requests = r :: rest → decode r = .legal i →
    step s = exec i { s with requests := rest }) ∧
  (∀ (s : State) (r : Request) (rest : List Request) (why : IllegalReason), s.requests = r :: rest →
    decode r = .illegal why →
    step s = .next { s with requests := rest, responses := s.responses ++ [⟨.illegalCommand, 0⟩] }) ∧
  (∀ s : State, s.requests = [] → step s = .next s) ∧
  (∀ (s : State) (i : Instr), step { s with requests := encode i :: s.requests } = exec i s)

/-- R112: the order of the checks. ILLEGAL_COMMAND comes first, then NOT_SEEDED, then the command's own condition, and the
first that holds is reported. -/
def Obligations.ChecksComeInOrder : Prop :=
  ∀ (s : State) (r : Request) (rest : List Request), s.requests = r :: rest →
    (∀ why, decode r = .illegal why →
      step s = .next { s with requests := rest, responses := s.responses ++ [⟨.illegalCommand, 0⟩] }) ∧
    (∀ i, decode r = .legal i → (∀ v, i ≠ .seed v) → s.seeded = false →
      step s = .next { s with requests := rest, responses := s.responses ++ [⟨.notSeeded, 0⟩] }) ∧
    (∀ i, decode r = .legal i → step s = exec i { s with requests := rest }) ∧
    (s.seeded = true →
      (∀ lo hi, decode r = .legal (.rangeu lo hi) → hi.toNat < lo.toNat →
        step s = .next { s with requests := rest, responses := s.responses ++ [⟨.invalidRange, 0⟩] }) ∧
      (∀ lo hi, decode r = .legal (.ranges lo hi) → hi.toInt < lo.toInt →
        step s = .next { s with requests := rest, responses := s.responses ++ [⟨.invalidRange, 0⟩] }) ∧
      (∀ n, decode r = .legal (.unsigned n) ∨ decode r = .legal (.signed n) →
        n.toNat ≠ 8 → n.toNat ≠ 16 → n.toNat ≠ 32 → n.toNat ≠ 64 →
        step s = .next { s with requests := rest, responses := s.responses ++ [⟨.invalidBitWidth, 0⟩] }) ∧
      (decode r = .legal (.pick 0) →
        step s = .next { s with requests := rest, responses := s.responses ++ [⟨.absent, 0⟩] }))

/-- R108, R109, R117: a step that takes a request produces exactly one response; where its STATUS is not OK, its RESULT is 0
and nothing of the block changes: the state is the one before, less the request. -/
def Obligations.RefusedCommandsChangeNothing : Prop :=
  ∀ (s t : State) (r : Request) (rest : List Request), s.requests = r :: rest → step s = .next t →
    ∃ a : Response, s.Answers t a ∧ t.requests = rest ∧
      (a.status ≠ .ok → a.result = 0 ∧ t = { s with requests := rest, responses := s.responses ++ [⟨a.status, 0⟩] })

/-- R107: the codes of the STATUS field; codes 6 and 7 are those of no status. -/
def Obligations.StatusCodesAreTheTable : Prop :=
  Status.ok.code = 0 ∧ Status.absent.code = 1 ∧ Status.invalidRange.code = 2 ∧ Status.invalidBitWidth.code = 3 ∧
  Status.notSeeded.code = 4 ∧ Status.illegalCommand.code = 5 ∧ ∀ st : Status, st.code ≠ 6 ∧ st.code ≠ 7

/-- R110, R113, R114, R115: which commands raise which status, and on what condition: each status exactly when its condition
holds. A command that is not OK records nothing beyond the status and makes no draw. -/
def Obligations.EachStatusHasItsCondition : Prop :=
  ∀ (i : Instr) (s t : State) (a : Response), exec i s = .next t → s.Answers t a →
    (a.status = .notSeeded ↔ s.seeded = false ∧ ∀ v, i ≠ .seed v) ∧
    (a.status = .invalidRange ↔ s.seeded = true ∧
      ((∃ lo hi, i = .rangeu lo hi ∧ hi.toNat < lo.toNat) ∨ (∃ lo hi, i = .ranges lo hi ∧ hi.toInt < lo.toInt))) ∧
    (a.status = .invalidBitWidth ↔ s.seeded = true ∧ ∃ n : SizeField, (i = .unsigned n ∨ i = .signed n) ∧
      n.toNat ≠ 8 ∧ n.toNat ≠ 16 ∧ n.toNat ≠ 32 ∧ n.toNat ≠ 64) ∧
    (a.status = .absent ↔ s.seeded = true ∧ i = .pick 0) ∧
    a.status ≠ .illegalCommand ∧
    (a.status ≠ .ok → t = { s with responses := s.responses ++ [⟨a.status, 0⟩] })

/-! ### The commands -/

/-- R71: SEED is the word 0x0001, reads `OPA` and ignores `OPB`; it loads `STATE`, sets `SEEDED` and answers {OK, 0} in every
state, whatever `STATE` and `SEEDED` were; every other word of its opcode is illegal. -/
def Obligations.SeedLoadsTheStateWord : Prop :=
  (∀ opa opb : Word64, decode ⟨0x0001, opa, opb⟩ = .legal (.seed opa)) ∧
  (∀ r : Request, r.cmd.toNat % 16 = 1 → r.cmd ≠ 0x0001 → ∃ why, decode r = .illegal why) ∧
  (∀ (s : State) (v : Word64),
    exec (.seed v) s = .next { s with state := some v, seeded := true, responses := s.responses ++ [⟨.ok, 0⟩] })

/-- R72, R11: NEXT makes one transition and answers the new state, `STATE * LCG_A + LCG_C` modulo 2^64; from `STATE = 0` that is
`LCG_C`; unseeded it answers NOT_SEEDED and changes nothing. -/
def Obligations.NextReturnsTheNewState : Prop :=
  (∀ opa opb : Word64, decode ⟨0x0002, opa, opb⟩ = .legal .next) ∧
  (∀ r : Request, r.cmd.toNat % 16 = 2 → r.cmd ≠ 0x0002 → ∃ why, decode r = .illegal why) ∧
  (∀ s : State, s.seeded = false →
    exec .next s = .next { s with responses := s.responses ++ [⟨.notSeeded, 0⟩] }) ∧
  (∀ (s : State) (x : Word64), s.seeded = true → s.state = some x →
    exec .next s = .next { s with
      state := some (x * s.params.multiplier + s.params.increment)
      responses := s.responses ++ [⟨.ok, x * s.params.multiplier + s.params.increment⟩] }) ∧
  (∀ s : State, s.seeded = true → s.state = some 0 →
    exec .next s = .next { s with
      state := some s.params.increment, responses := s.responses ++ [⟨.ok, s.params.increment⟩] })

/-- R81, R80: RANGEU refuses min > max (unsigned). Else with `n = max - min + 1` it draws until a draw `x` has
`lo64(x * n) >= 2^64 mod n`, leaves that draw in `STATE` and answers `min + hi64(x * n)`, which is between min and max. -/
def Obligations.RangeuDrawsWithinUnsignedBounds : Prop :=
  (∀ opa opb : Word64, decode ⟨0x0003, opa, opb⟩ = .legal (.rangeu opa opb)) ∧
  (∀ r : Request, r.cmd.toNat % 16 = 3 → r.cmd ≠ 0x0003 → ∃ why, decode r = .illegal why) ∧
  (∀ (s : State) (lo hi : Word64), s.seeded = false →
    exec (.rangeu lo hi) s = .next { s with responses := s.responses ++ [⟨.notSeeded, 0⟩] }) ∧
  (∀ (s : State) (lo hi : Word64), s.seeded = true → hi.toNat < lo.toNat →
    exec (.rangeu lo hi) s = .next { s with responses := s.responses ++ [⟨.invalidRange, 0⟩] }) ∧
  (∀ (s : State) (x lo hi : Word64), s.seeded = true → s.state = some x → lo.toNat ≤ hi.toNat →
    ∀ n : Nat, n = hi.toNat - lo.toNat + 1 →
    ∃ (k : Nat) (v : Word64), 1 ≤ k ∧
      (∀ j, 1 ≤ j → j < k → (s.params.orbit x j).toNat * n % 2 ^ 64 < 2 ^ 64 % n) ∧
      2 ^ 64 % n ≤ (s.params.orbit x k).toNat * n % 2 ^ 64 ∧
      v.toNat = lo.toNat + (s.params.orbit x k).toNat * n / 2 ^ 64 ∧ lo.toNat ≤ v.toNat ∧ v.toNat ≤ hi.toNat ∧
      exec (.rangeu lo hi) s =
        .next { s with state := some (s.params.orbit x k), responses := s.responses ++ [⟨.ok, v⟩] })

/-- R82, R80: RANGES is the same over signed bounds: it refuses min > max (signed), and answers a value between them as
a two's-complement pattern. -/
def Obligations.RangesDrawsWithinSignedBounds : Prop :=
  (∀ opa opb : Word64, decode ⟨0x0004, opa, opb⟩ = .legal (.ranges opa opb)) ∧
  (∀ r : Request, r.cmd.toNat % 16 = 4 → r.cmd ≠ 0x0004 → ∃ why, decode r = .illegal why) ∧
  (∀ (s : State) (lo hi : Word64), s.seeded = false →
    exec (.ranges lo hi) s = .next { s with responses := s.responses ++ [⟨.notSeeded, 0⟩] }) ∧
  (∀ (s : State) (lo hi : Word64), s.seeded = true → hi.toInt < lo.toInt →
    exec (.ranges lo hi) s = .next { s with responses := s.responses ++ [⟨.invalidRange, 0⟩] }) ∧
  (∀ (s : State) (x lo hi : Word64), s.seeded = true → s.state = some x → lo.toInt ≤ hi.toInt →
    ∀ n : Nat, (n : Int) = hi.toInt - lo.toInt + 1 →
    ∃ (k : Nat) (v : Word64), 1 ≤ k ∧
      (∀ j, 1 ≤ j → j < k → (s.params.orbit x j).toNat * n % 2 ^ 64 < 2 ^ 64 % n) ∧
      2 ^ 64 % n ≤ (s.params.orbit x k).toNat * n % 2 ^ 64 ∧
      v.toInt = lo.toInt + ((s.params.orbit x k).toNat * n / 2 ^ 64 : Nat) ∧
      lo.toInt ≤ v.toInt ∧ v.toInt ≤ hi.toInt ∧
      exec (.ranges lo hi) s =
        .next { s with state := some (s.params.orbit x k), responses := s.responses ++ [⟨.ok, v⟩] })

/-- R84: FLOAT64 makes one draw `x` and answers the pattern, sign 0, whose exact value is `(x >> 11) * 2^-53`.
The binary64 layout by which the value is read is PRESUMED (log entry 14, K7). -/
def Obligations.Float64ScalesTheTopBits : Prop :=
  (∀ opa opb : Word64, decode ⟨0x0005, opa, opb⟩ = .legal .float64) ∧
  (∀ r : Request, r.cmd.toNat % 16 = 5 → r.cmd ≠ 0x0005 → ∃ why, decode r = .illegal why) ∧
  (∀ s : State, s.seeded = false →
    exec .float64 s = .next { s with responses := s.responses ++ [⟨.notSeeded, 0⟩] }) ∧
  (∀ (s : State) (x : Word64), s.seeded = true → s.state = some x →
    ∃ v : Word64, v.getLsbD 63 = false ∧
      binary64Value v = ((s.params.orbit x 1).toNat / 2 ^ 11 : Nat) / 2 ^ 53 ∧
      exec .float64 s =
        .next { s with state := some (s.params.orbit x 1), responses := s.responses ++ [⟨.ok, v⟩] })

/-- R86: FLOAT32 makes one draw `x` and answers, in the low 32 bits of RESULT with zeros above, the pattern, sign 0, whose exact
value is `x[63:40] * 2^-24`. The binary32 layout by which the value is read is PRESUMED (log entry 14, K8). -/
def Obligations.Float32ScalesTheTopBits : Prop :=
  (∀ opa opb : Word64, decode ⟨0x0006, opa, opb⟩ = .legal .float32) ∧
  (∀ r : Request, r.cmd.toNat % 16 = 6 → r.cmd ≠ 0x0006 → ∃ why, decode r = .illegal why) ∧
  (∀ s : State, s.seeded = false →
    exec .float32 s = .next { s with responses := s.responses ++ [⟨.notSeeded, 0⟩] }) ∧
  (∀ (s : State) (x : Word64), s.seeded = true → s.state = some x →
    ∃ v : Word64, v.toNat < 2 ^ 31 ∧
      binary32Value (v.setWidth 32) = ((s.params.orbit x 1).toNat / 2 ^ 40 : Nat) / 2 ^ 24 ∧
      exec .float32 s =
        .next { s with state := some (s.params.orbit x 1), responses := s.responses ++ [⟨.ok, v⟩] })

/-- R88: BOOL makes one draw and answers its bit 63, 1 for true and 0 for false. -/
def Obligations.BoolReturnsTheTopBit : Prop :=
  (∀ opa opb : Word64, decode ⟨0x0007, opa, opb⟩ = .legal .bool) ∧
  (∀ r : Request, r.cmd.toNat % 16 = 7 → r.cmd ≠ 0x0007 → ∃ why, decode r = .illegal why) ∧
  (∀ s : State, s.seeded = false →
    exec .bool s = .next { s with responses := s.responses ++ [⟨.notSeeded, 0⟩] }) ∧
  (∀ (s : State) (x : Word64), s.seeded = true → s.state = some x →
    exec .bool s = .next { s with
      state := some (s.params.orbit x 1)
      responses := s.responses ++ [⟨.ok, if (s.params.orbit x 1).getLsbD 63 then 1 else 0⟩] })

/-- R89: UNSIGNED refuses a width other than 8, 16, 32, 64 before any draw; else it makes one draw and answers its top SIZE bits
as an unsigned value, at most `2^SIZE - 1`. -/
def Obligations.UnsignedTakesTheTopBits : Prop :=
  (∀ r : Request, r.cmd.toNat % 256 = 0x08 → decode r = .legal (.unsigned (BitVec.ofNat 8 (r.cmd.toNat / 256)))) ∧
  (∀ r : Request, r.cmd.toNat % 16 = 8 → r.cmd.toNat % 256 ≠ 0x08 → ∃ why, decode r = .illegal why) ∧
  (∀ (s : State) (n : SizeField), s.seeded = false →
    exec (.unsigned n) s = .next { s with responses := s.responses ++ [⟨.notSeeded, 0⟩] }) ∧
  (∀ (s : State) (n : SizeField), s.seeded = true →
    n.toNat ≠ 8 → n.toNat ≠ 16 → n.toNat ≠ 32 → n.toNat ≠ 64 →
    exec (.unsigned n) s = .next { s with responses := s.responses ++ [⟨.invalidBitWidth, 0⟩] }) ∧
  (∀ (s : State) (x : Word64) (n : SizeField), s.seeded = true → s.state = some x →
    n.toNat = 8 ∨ n.toNat = 16 ∨ n.toNat = 32 ∨ n.toNat = 64 →
    ∃ v : Word64, v.toNat = (s.params.orbit x 1).toNat / 2 ^ (64 - n.toNat) ∧ v.toNat ≤ 2 ^ n.toNat - 1 ∧
      exec (.unsigned n) s =
        .next { s with state := some (s.params.orbit x 1), responses := s.responses ++ [⟨.ok, v⟩] })

/-- R90: SIGNED is the same with the top SIZE bits read as a two's-complement value, which RESULT carries sign-extended. -/
def Obligations.SignedTakesTheTopBits : Prop :=
  (∀ r : Request, r.cmd.toNat % 256 = 0x09 → decode r = .legal (.signed (BitVec.ofNat 8 (r.cmd.toNat / 256)))) ∧
  (∀ r : Request, r.cmd.toNat % 16 = 9 → r.cmd.toNat % 256 ≠ 0x09 → ∃ why, decode r = .illegal why) ∧
  (∀ (s : State) (n : SizeField), s.seeded = false →
    exec (.signed n) s = .next { s with responses := s.responses ++ [⟨.notSeeded, 0⟩] }) ∧
  (∀ (s : State) (n : SizeField), s.seeded = true →
    n.toNat ≠ 8 → n.toNat ≠ 16 → n.toNat ≠ 32 → n.toNat ≠ 64 →
    exec (.signed n) s = .next { s with responses := s.responses ++ [⟨.invalidBitWidth, 0⟩] }) ∧
  (∀ (s : State) (x : Word64) (n : SizeField), s.seeded = true → s.state = some x →
    n.toNat = 8 ∨ n.toNat = 16 ∨ n.toNat = 32 ∨ n.toNat = 64 →
    ∃ v : Word64,
      v.toInt = (if (s.params.orbit x 1).getLsbD 63
        then ((s.params.orbit x 1).toNat / 2 ^ (64 - n.toNat) : Nat) - 2 ^ n.toNat
        else ((s.params.orbit x 1).toNat / 2 ^ (64 - n.toNat) : Nat) : Int) ∧
      -2 ^ (n.toNat - 1) ≤ v.toInt ∧ v.toInt ≤ 2 ^ (n.toNat - 1) - 1 ∧
      exec (.signed n) s =
        .next { s with state := some (s.params.orbit x 1), responses := s.responses ++ [⟨.ok, v⟩] })

/-- R101, R80: PICK answers {NONE, 0} for length 0, without a draw; else it maps draws onto `0 .. length - 1` as the range
commands do, and gives what RANGEU 0, length - 1 gives. -/
def Obligations.PickDrawsAnIndex : Prop :=
  (∀ opa opb : Word64, decode ⟨0x000A, opa, opb⟩ = .legal (.pick opa)) ∧
  (∀ r : Request, r.cmd.toNat % 16 = 10 → r.cmd ≠ 0x000A → ∃ why, decode r = .illegal why) ∧
  (∀ (s : State) (n : Word64), s.seeded = false →
    exec (.pick n) s = .next { s with responses := s.responses ++ [⟨.notSeeded, 0⟩] }) ∧
  (∀ s : State, s.seeded = true →
    exec (.pick 0) s = .next { s with responses := s.responses ++ [⟨.absent, 0⟩] }) ∧
  (∀ (s : State) (x n : Word64), s.seeded = true → s.state = some x → n ≠ 0 →
    ∃ (k : Nat) (v : Word64), 1 ≤ k ∧
      (∀ j, 1 ≤ j → j < k → (s.params.orbit x j).toNat * n.toNat % 2 ^ 64 < 2 ^ 64 % n.toNat) ∧
      2 ^ 64 % n.toNat ≤ (s.params.orbit x k).toNat * n.toNat % 2 ^ 64 ∧
      v.toNat = (s.params.orbit x k).toNat * n.toNat / 2 ^ 64 ∧ v.toNat ≤ n.toNat - 1 ∧
      exec (.pick n) s =
        .next { s with state := some (s.params.orbit x k), responses := s.responses ++ [⟨.ok, v⟩] }) ∧
  (∀ (s : State) (n : Word64), n ≠ 0 → exec (.pick n) s = exec (.rangeu 0 (n - 1)) s)

/-- R89, R90: the width 64 takes the whole draw: UNSIGNED 64 and SIGNED 64 answer what NEXT answers, in every state. -/
def Obligations.FullWidthTakesTheWholeDraw : Prop :=
  ∀ s : State, exec (.unsigned 64) s = exec .next s ∧ exec (.signed 64) s = exec .next s

/-! ### Laws of the engine and of the derivation unit -/

/-- R75: the transition is the exact product and sum reduced modulo 2^64; reducing after the multiply as well gives the same,
and so does reading the operands as signed. -/
def Obligations.TransitionWrapsExactly : Prop :=
  ∀ (p : Params) (x : Word64),
    (p.transition x).toNat = (x.toNat * p.multiplier.toNat + p.increment.toNat) % 2 ^ 64 ∧
    (p.transition x).toNat = (x.toNat * p.multiplier.toNat % 2 ^ 64 + p.increment.toNat) % 2 ^ 64 ∧
    p.transition x = BitVec.ofInt 64 (x.toInt * p.multiplier.toInt + p.increment.toInt)

/-- R74: the transition is one cycle through all 2^64 values: the first 2^64 draws are pairwise distinct, draw `2^64 + k`
equals draw `k`, every value occurs exactly once among any 2^64 consecutive draws, and the rejection loops end. -/
def Obligations.TransitionHasFullPeriod : Prop :=
  ∀ (p : Params) (x : Word64),
    (∀ i j : Nat, i < 2 ^ 64 → j < 2 ^ 64 → p.transition^[i + 1] x = p.transition^[j + 1] x → i = j) ∧
    (∀ k : Nat, p.transition^[2 ^ 64 + k] x = p.transition^[k] x) ∧
    (∀ (m : Nat) (y : Word64), ∃! k, k < 2 ^ 64 ∧ p.transition^[m + k] x = y) ∧
    (∀ lo span : Word64, (rangeMap p lo span x).isSome = true)

/-- R77: bit `k` of successive `STATE` values repeats with period `2^(k+1)` and no shorter power of two: half a period later it
is inverted. Bit 0 alternates. -/
def Obligations.LowBitsHaveShortPeriods : Prop :=
  ∀ (p : Params) (x : Word64),
    (∀ k i : Nat, k < 64 →
      (p.transition^[i + 2 ^ (k + 1)] x).getLsbD k = (p.transition^[i] x).getLsbD k ∧
      (p.transition^[i + 2 ^ k] x).getLsbD k = !(p.transition^[i] x).getLsbD k) ∧
    (p.transition x).getLsbD 0 = !x.getLsbD 0

/-- R80, with the bounds of R83(b) and (d): `RangeMap` always returns. It accepts the k-th draw for a `k` of at most `t + 1`, all draws before it
being rejected, and `k` is 1 where `t = 0`; the value is `u64(lo + hi64(x * n))`. -/
def Obligations.RangeMapEndsWithinThreshold : Prop :=
  ∀ (p : Params) (lo span x : Word64) (n t : Nat), n = span.toNat + 1 → t = 2 ^ 64 % n →
    ∃ k : Nat, 1 ≤ k ∧ k ≤ t + 1 ∧ (t = 0 → k = 1) ∧
      (∀ j, 1 ≤ j → j < k → (p.orbit x j).toNat * n % 2 ^ 64 < t) ∧
      t ≤ (p.orbit x k).toNat * n % 2 ^ 64 ∧
      rangeMap p lo span x = some (p.orbit x k, lo + BitVec.ofNat 64 ((p.orbit x k).toNat * n / 2 ^ 64))

/-- R83(a), (b): the offset of a draw is at most `n - 1`; exactly `t` of the 2^64 draws are rejected, and `t` is at most `n - 1`
and at most `2^64 - n`, so below 2^63. -/
def Obligations.ThresholdCountsRejectedDraws : Prop :=
  ∀ n : Nat, 1 ≤ n → n ≤ 2 ^ 64 →
    (∀ y : Word64, hi64 (y.toNat * n) ≤ n - 1) ∧
    (Finset.univ.filter fun y : Word64 => accepted n y = false).card = threshold n ∧
    threshold n ≤ n - 1 ∧ threshold n ≤ 2 ^ 64 - n ∧ threshold n < 2 ^ 63

/-- R83(c): the mapping is bias-free: each of the `n` results comes from exactly `floor(2^64 / n)` accepted draws. -/
def Obligations.RangeMapIsUniform : Prop :=
  ∀ n j : Nat, 1 ≤ n → n ≤ 2 ^ 64 → j < n →
    (Finset.univ.filter fun y : Word64 => accepted n y = true ∧ hi64 (y.toNat * n) = j).card = 2 ^ 64 / n

/-- The note of R80: a 64-bit datapath computes the threshold as `u64(2^64 - n) mod n` and may accept a draw with
`lo64(x * n) >= n` without it; for `n = 2^64` the threshold is 0 and the offset is the draw. -/
def Obligations.NarrowDatapathAgrees : Prop :=
  (∀ n : Nat, 1 ≤ n → n < 2 ^ 64 →
    threshold n = (2 ^ 64 - n) % n ∧ ∀ y : Word64, n ≤ lo64 (y.toNat * n) → accepted n y = true) ∧
  (threshold (2 ^ 64) = 0 ∧ ∀ y : Word64, accepted (2 ^ 64) y = true ∧ hi64 (y.toNat * 2 ^ 64) = y.toNat)

/-- R81, the corner of a power of two: a count `2^j` never rejects; one draw `x` gives `min + (x >> (64 - j))`. -/
def Obligations.PowerOfTwoRangeDrawsOnce : Prop :=
  ∀ (s : State) (x lo hi : Word64) (j : Nat), s.seeded = true → s.state = some x → j ≤ 64 →
    hi.toNat = lo.toNat + (2 ^ j - 1) →
    exec (.rangeu lo hi) s = .next { s with
      state := some (s.params.orbit x 1)
      responses := s.responses ++ [⟨.ok, lo + s.params.orbit x 1 >>> (64 - j)⟩] }

/-- R85: `F64(m)` is the pattern of exactly `m * 2^-53`: sign 0, and for `m >= 1` a normal number with exponent field 970 to
1022; for `m = 0` it is the pattern 0.
The spec marks the exactness as derived, and the layout by which the value is read is PRESUMED (log entry 14, K7). -/
def Obligations.Float64PatternIsExact : Prop :=
  ∀ m : BitVec 53,
    binary64Value (f64 m) = m.toNat / 2 ^ 53 ∧ (f64 m).getLsbD 63 = false ∧ (m = 0 → f64 m = 0) ∧
    (m ≠ 0 → 970 ≤ ((f64 m).extractLsb' 52 11).toNat ∧ ((f64 m).extractLsb' 52 11).toNat ≤ 1022)

/-- R87: `F32(m)` is the pattern of exactly `m * 2^-24`: sign 0, and for `m >= 1` a normal number with exponent field 103 to 126;
for `m = 0` it is the pattern 0.
The spec marks the exactness as derived, and the layout by which the value is read is PRESUMED (log entry 14, K8). -/
def Obligations.Float32PatternIsExact : Prop :=
  ∀ m : BitVec 24,
    binary32Value (f32 m) = m.toNat / 2 ^ 24 ∧ (f32 m).getLsbD 31 = false ∧ (m = 0 → f32 m = 0) ∧
    (m ≠ 0 → 103 ≤ ((f32 m).extractLsb' 23 8).toNat ∧ ((f32 m).extractLsb' 23 8).toNat ≤ 126)

/-- R91: every FLOAT64 and FLOAT32 result is at least 0.0 and below 1.0, and neither is the pattern of 1.0. The spec marks the
law as derived, and the layouts by which the values are read are PRESUMED (log entry 14). -/
def Obligations.FloatsStayBelowOne : Prop :=
  ∀ (s : State) (x : Word64), s.seeded = true → s.state = some x →
    (∃ t v, exec .float64 s = .next t ∧ s.Answers t ⟨.ok, v⟩ ∧
      0 ≤ binary64Value v ∧ binary64Value v < 1 ∧ v ≠ 0x3FF0000000000000) ∧
    (∃ t v, exec .float32 s = .next t ∧ s.Answers t ⟨.ok, v⟩ ∧
      0 ≤ binary32Value (v.setWidth 32) ∧ binary32Value (v.setWidth 32) < 1 ∧ v ≠ 0x3F800000)

/-- R103, R102: PICK on the length of a sequence that is not empty gives the host an element of it; on an empty one it
answers NONE and the host returns absence. What the host makes of it is `hostReference`. -/
def Obligations.PickedElementIsInTheSequence : Prop :=
  ∀ (α : Type) (sequence : List α) (s : State) (x : Word64), s.seeded = true → s.state = some x →
    (sequence = [] → ∃ t a, exec (.pick 0) s = .next t ∧ s.Answers t a ∧ a.status = .absent ∧
      t.state = s.state ∧ hostReference sequence a = none) ∧
    (sequence ≠ [] → sequence.length < 2 ^ 64 →
      ∃ t a e, exec (.pick (BitVec.ofNat 64 sequence.length)) s = .next t ∧ s.Answers t a ∧ a.status = .ok ∧
        a.result.toNat ≤ sequence.length - 1 ∧ hostReference sequence a = some e ∧ e ∈ sequence)

/-- R41, with R74: no command that draws is idempotent: after one answered OK, `STATE` differs from what it was. SEED is: two
equal SEEDs leave the block as one does. -/
def Obligations.DrawingCommandsAdvanceTheState : Prop :=
  (∀ (i : Instr) (s t : State) (v : Word64), exec i s = .next t → s.Answers t ⟨.ok, v⟩ → (∀ w, i ≠ .seed w) →
    t.state ≠ s.state) ∧
  (∀ (s t u : State) (v : Word64), exec (.seed v) s = .next t → exec (.seed v) t = .next u →
    u.state = t.state ∧ u.seeded = t.seeded)

/-! ### Runs and the invariant -/

/-- The invariant holds right after reset, and after the reset event in any state. -/
def Obligations.ResetMeetsTheInvariant : Prop :=
  State.reset.Inv ∧ ∀ s : State, (resetEvent s).Inv

/-- R21, R22, R108: every step keeps the invariant: `SEEDED = 1` exactly when `STATE` holds a value, and a response that is not
OK has RESULT 0. -/
def Obligations.StepKeepsTheInvariant : Prop :=
  ∀ s t : State, s.Inv → step s = .next t → t.Inv

/-- R24, R117, R118, R126, R83(b): from a state that meets the invariant the block never stops. A waiting request, of any 144
bits, is taken and has its one response: no trap is taken and the rejection loop ends. With no request the block idles. That
it idles as a step and that it goes on without the host taking responses are the model's choices (log entries 6 and 5). -/
def Obligations.EveryRequestIsAnswered : Prop :=
  ∀ s : State, s.Inv →
    (∀ (r : Request) (rest : List Request), s.requests = r :: rest →
      ∃ (t : State) (a : Response), step s = .next t ∧ s.Answers t a ∧ t.requests = rest) ∧
    (s.requests = [] → step s = .next s)

/-- R24, R38: each request produces exactly one response, and responses return in request order: after `k` steps the first `k`
requests are gone and the first `k` responses stand on the channel. -/
def Obligations.OneResponsePerRequestInOrder : Prop :=
  ∀ (s : State) (rest : List Request) (queue : List Request), s.Inv → s.requests = queue ++ rest →
    ∃ answers : List Response, answers.length = queue.length ∧
      ∀ k, k ≤ queue.length → ∃ t, core.run k s = .next t ∧
        t.requests = queue.drop k ++ rest ∧ t.responses = s.responses ++ answers.take k

/-- R76: determinism. The response to a command and the registers after it depend on the registers before it, the command
and the parameters, and on nothing else. -/
def Obligations.AnswersDependOnTheRegistersAlone : Prop :=
  ∀ (i : Instr) (s s' t : State), s.params = s'.params → s.seeded = s'.seeded →
    (s.seeded = true → s.state = s'.state) → exec i s = .next t →
    ∃ t' a, exec i s' = .next t' ∧ s.Answers t a ∧ s'.Answers t' a ∧ t.seeded = t'.seeded ∧
      (t.seeded = true → t.state = t'.state)

/-- R76, R71: two blocks with equal parameters, seeded with the same value and given the same requests, return the same
responses and end with the same registers, whatever either did before. -/
def Obligations.EqualSeedsGiveEqualSequences : Prop :=
  ∀ (s s' : State) (v : Word64) (queue : List Request), s.params = s'.params →
    s.requests = encode (.seed v) :: queue → s'.requests = encode (.seed v) :: queue →
    ∃ t t' answers, core.run (queue.length + 1) s = .next t ∧ core.run (queue.length + 1) s' = .next t' ∧
      t.responses = s.responses ++ answers ∧ t'.responses = s'.responses ++ answers ∧
      answers.length = queue.length + 1 ∧ t.state = t'.state ∧ t.seeded = true ∧ t'.seeded = true
end

