-- ==== Sys2Proof/Laws/Decode.lean ====
section
/-!
SUPPORT. The fields of a command word as numbers (spec/30_encoding.md R52), and the word the encoder builds from a SIZE.
-/
namespace Sys2Proof

theorem opField_toNat (cmd : CmdWord) : (opField cmd).toNat = cmd.toNat % 16 := by
  simp [opField, BitVec.extractLsb'_toNat]

theorem rsvField_toNat (cmd : CmdWord) : (rsvField cmd).toNat = cmd.toNat / 16 % 16 := by
  simp [rsvField, BitVec.extractLsb'_toNat, Nat.shiftRight_eq_div_pow]

theorem sizeField_toNat (cmd : CmdWord) : (sizeField cmd).toNat = cmd.toNat / 256 := by
  have := cmd.isLt
  simp only [sizeField, BitVec.extractLsb'_toNat, Nat.shiftRight_eq_div_pow]
  omega

/-- A word built from a SIZE and its low byte. -/
theorem sizedWord_toNat (n : SizeField) (low : BitVec 8) :
    (n ++ low : CmdWord).toNat = n.toNat * 256 + low.toNat := by
  rw [BitVec.toNat_append, Nat.shiftLeft_eq, mul_comm, ← Nat.two_pow_add_eq_or_of_lt low.isLt]

/-- Masking a word with 0x00FF keeps its low byte. -/
theorem lowByte_toNat (cmd : CmdWord) : (cmd &&& 0x00FF).toNat = cmd.toNat % 256 := by
  rw [BitVec.toNat_and]
  exact Nat.and_two_pow_sub_one_eq_mod cmd.toNat 8

/-- Masking a word with 0xFFFF keeps it. -/
theorem wholeWord_and (cmd : CmdWord) : cmd &&& 0xFFFF = cmd := BitVec.and_allOnes

theorem rsvField_zero_iff (cmd : CmdWord) : rsvField cmd = 0 ↔ cmd.toNat / 16 % 16 = 0 := by
  rw [← rsvField_toNat]
  exact ⟨fun h => by simp [h], fun h => BitVec.eq_of_toNat_eq h⟩

theorem sizeField_zero_iff (cmd : CmdWord) : sizeField cmd = 0 ↔ cmd.toNat / 256 = 0 := by
  rw [← sizeField_toNat]
  exact ⟨fun h => by simp [h], fun h => BitVec.eq_of_toNat_eq h⟩

theorem opField_eq_iff (cmd : CmdWord) (op : BitVec 4) : opField cmd = op ↔ cmd.toNat % 16 = op.toNat := by
  rw [← opField_toNat]
  exact ⟨fun h => by rw [h], fun h => BitVec.eq_of_toNat_eq h⟩

/-- The opcodes that name no command are 0 and those above 10 (R54). -/
theorem commandOf_none_iff (op : BitVec 4) (size : SizeField) (opa opb : Word64) :
    commandOf op size opa opb = none ↔ op.toNat = 0 ∨ 0xA < op.toNat := by
  have := op.isLt
  unfold commandOf
  split <;> simp_all
  omega

/-- The decode procedure with its checks on the word as a number: the one unfolding of `decode`. -/
theorem decode_eq (r : Request) :
    decode r = match commandOf (opField r.cmd) (sizeField r.cmd) r.opa r.opb with
      | none => .illegal .reservedOpcode
      | some i =>
        if r.cmd.toNat / 16 % 16 ≠ 0 then .illegal .reservedBits
        else if r.cmd.toNat / 256 ≠ 0 ∧ r.cmd.toNat % 16 ≠ 8 ∧ r.cmd.toNat % 16 ≠ 9 then .illegal .misplacedSize
        else .legal i := by
  unfold decode
  have h8 : opField r.cmd = 8 ↔ r.cmd.toNat % 16 = 8 := opField_eq_iff r.cmd 8
  have h9 : opField r.cmd = 9 ↔ r.cmd.toNat % 16 = 9 := opField_eq_iff r.cmd 9
  cases commandOf (opField r.cmd) (sizeField r.cmd) r.opa r.opb with
  | none => rfl
  | some i =>
    exact ite_congr (by simp only [ne_eq, rsvField_zero_iff]) (fun _ => rfl) fun _ =>
      ite_congr (by simp only [ne_eq, sizeField_zero_iff, h8, h9]) (fun _ => rfl) fun _ => rfl

end Sys2Proof
end

