-- ==== Sys2Proof/Laws/Exec.lean ====
section
/-!
SUPPORT. Each command's meaning as its equation over the shared operations, and what a step is for a request: what later proofs
rewrite with instead of unfolding `exec` and `step`.
-/
namespace Sys2Proof.Machine

theorem exec_seed (v : Word64) (s : State) :
    exec (.seed v) s = .next (respond .ok 0 { s with state := some v, seeded := true }) := rfl

theorem exec_next (s : State) : exec .next s = whenSeeded (respondDraw fun x => x) s := rfl

theorem exec_rangeu (lo hi : Word64) (s : State) :
    exec (.rangeu lo hi) s =
      whenSeeded (fun s => if rangeuInvalid lo hi then raise .invalidRange s else respondRange lo (spanOf lo hi) s) s :=
  rfl

theorem exec_ranges (lo hi : Word64) (s : State) :
    exec (.ranges lo hi) s =
      whenSeeded (fun s => if rangesInvalid lo hi then raise .invalidRange s else respondRange lo (spanOf lo hi) s) s :=
  rfl

theorem exec_float64 (s : State) : exec .float64 s = whenSeeded (respondDraw fun x => f64 (topBits 53 x)) s := rfl

theorem exec_float32 (s : State) :
    exec .float32 s = whenSeeded (respondDraw fun x => zext64 (f32 (top24 (topBits 32 x)))) s := rfl

theorem exec_bool (s : State) : exec .bool s = whenSeeded (respondDraw fun x => zext64 (topBits 1 x)) s := rfl

theorem exec_unsigned (n : SizeField) (s : State) :
    exec (.unsigned n) s =
      whenSeeded (fun s =>
        if widthValid n then respondDraw (fun x => zext64 (topBits n.toNat x)) s else raise .invalidBitWidth s) s := rfl

theorem exec_signed (n : SizeField) (s : State) :
    exec (.signed n) s =
      whenSeeded (fun s =>
        if widthValid n then respondDraw (fun x => sext64 (topBits n.toNat x)) s else raise .invalidBitWidth s) s := rfl

theorem exec_pick (n : Word64) (s : State) :
    exec (.pick n) s =
      whenSeeded (fun s => if n = 0 then raise .absent s else respondRange 0 (n - 1) s) s := rfl

theorem step_of_request {s : State} {r : Request} {rest : List Request} (h : s.requests = r :: rest) :
    step s = perform r { s with requests := rest } := by
  simp [step, h]

theorem perform_of_legal {r : Request} {i : Instr} (h : decode r = .legal i) (s : State) : perform r s = exec i s := by
  simp [perform, h]

theorem perform_of_illegal {r : Request} {why : IllegalReason} (h : decode r = .illegal why) (s : State) :
    perform r s = raise .illegalCommand s := by
  simp [perform, h]

end Sys2Proof.Machine
end

