-- ==== Sys2Proof/Laws/Ops.lean ====
section
/-!
SUPPORT. What each shared operation can do, said once: the draw, the exception, the common check, the commands of one draw,
and the range mapping.
-/
namespace Sys2Proof

/-- The exact transition of 00_scope R11 is the wrapping one (40_core R75). -/
theorem Params.transition_eq (p : Params) (x : Word64) :
    p.transition x = x * p.multiplier + p.increment := by
  apply BitVec.eq_of_toNat_eq
  simp [Params.transition, Machine.u64, BitVec.toNat_add, BitVec.toNat_mul]

theorem Params.orbit_succ (p : Params) (x : Word64) (k : Nat) :
    p.orbit x (k + 1) = p.transition (p.orbit x k) := by
  rw [Params.transition_eq]; rfl

/-- Drawing once and then `k` times is drawing `k + 1` times. -/
theorem Params.orbit_transition (p : Params) (x : Word64) (k : Nat) :
    p.orbit (p.transition x) k = p.orbit x (k + 1) := by
  induction k with
  | zero => rw [Params.orbit_succ]; rfl
  | succ k ih => rw [Params.orbit_succ, ih, ← Params.orbit_succ]

namespace Machine

theorem raise_eq (e : Status) (s : State) : raise e s = .next (respond e 0 s) := rfl

theorem whenSeeded_unseeded {s : State} (h : s.seeded = false) (command : State → Answer) :
    whenSeeded command s = .next (respond .notSeeded 0 s) := by
  simp [whenSeeded, h, raise]

theorem whenSeeded_seeded {s : State} (h : s.seeded = true) (command : State → Answer) :
    whenSeeded command s = command s := by
  simp [whenSeeded, h]

theorem respondDraw_written {s : State} {x : Word64} (h : s.state = some x) (f : Word64 → Word64) :
    respondDraw f s =
      .next (respond .ok (f (s.params.transition x)) { s with state := some (s.params.transition x) }) := by
  simp [respondDraw, h]

theorem respondDraw_unwritten {s : State} (h : s.state = none) (f : Word64 → Word64) :
    respondDraw f s = .fault .unwrittenStateRead := by
  simp [respondDraw, h]

theorem accepted_iff (n : Nat) (y : Word64) : accepted n y = true ↔ 2 ^ 64 % n ≤ y.toNat * n % 2 ^ 64 := by
  exact decide_eq_true_iff

/-- Everything the rejection loop can do: it answers the first accepted draw, or all its draws are rejected. -/
theorem acceptedDraw_cases (p : Params) (n fuel : Nat) (x : Word64) :
    (∃ k, 1 ≤ k ∧ k ≤ fuel ∧ (∀ j, 1 ≤ j → j < k → accepted n (p.orbit x j) = false) ∧
        accepted n (p.orbit x k) = true ∧ acceptedDraw p n fuel x = some (p.orbit x k)) ∨
      ((∀ j, 1 ≤ j → j ≤ fuel → accepted n (p.orbit x j) = false) ∧ acceptedDraw p n fuel x = none) := by
  induction fuel generalizing x with
  | zero => exact .inr ⟨fun j h1 h2 => by omega, rfl⟩
  | succ fuel ih =>
    have first : p.orbit x 1 = p.transition x := by rw [Params.orbit_succ]; rfl
    by_cases h : accepted n (p.transition x) = true
    · refine .inl ⟨1, le_rfl, by omega, fun j h1 h2 => by omega, by rw [first, h], ?_⟩
      simp [acceptedDraw, h, first]
    · have hf : accepted n (p.transition x) = false := by simpa using h
      have later : ∀ j, 1 ≤ j → (1 < j → accepted n (p.orbit (p.transition x) (j - 1)) = false) →
          accepted n (p.orbit x j) = false := by
        intro j h1 hj
        rcases Nat.lt_or_ge 1 j with h2 | h2
        · have := hj h2
          rwa [Params.orbit_transition, Nat.sub_add_cancel h1] at this
        · obtain rfl : j = 1 := by omega
          rw [first, hf]
      rcases ih (p.transition x) with ⟨k, hk1, hk2, hrej, hacc, hres⟩ | ⟨hrej, hres⟩
      · refine .inl ⟨k + 1, by omega, by omega,
          fun j h1 h2 => later j h1 fun h3 => hrej _ (by omega) (by omega), ?_, ?_⟩
        · rw [← Params.orbit_transition, hacc]
        · rw [← Params.orbit_transition, ← hres]; simp [acceptedDraw, hf]
      · refine .inr ⟨fun j h1 h2 => later j h1 fun h3 => hrej _ (by omega) (by omega), ?_⟩
        rw [← hres]; simp [acceptedDraw, hf]

/-- Everything a range command can do once its bounds are checked. -/
theorem respondRange_cases (lo span : Word64) (s : State) :
    (s.state = none ∧ respondRange lo span s = .fault .unwrittenStateRead) ∨
      (∃ x, s.state = some x ∧ rangeMap s.params lo span x = none ∧
        respondRange lo span s = .fault .rejectionEndless) ∨
      (∃ x y v, s.state = some x ∧ rangeMap s.params lo span x = some (y, v) ∧
        respondRange lo span s = .next (respond .ok v { s with state := some y })) := by
  unfold respondRange
  cases h : s.state with
  | none => exact .inl ⟨rfl, rfl⟩
  | some x =>
    cases h' : rangeMap s.params lo span x with
    | none => exact .inr (.inl ⟨x, rfl, h', by simp [h']⟩)
    | some yv => exact .inr (.inr ⟨x, yv.1, yv.2, rfl, h', by simp [h']⟩)

theorem widthValid_iff (n : SizeField) : widthValid n = true ↔ n = 8 ∨ n = 16 ∨ n = 32 ∨ n = 64 := by
  simp [widthValid, or_assoc]

theorem rangeuInvalid_iff (lo hi : Word64) : rangeuInvalid lo hi = true ↔ hi.toNat < lo.toNat := by
  exact decide_eq_true_iff

theorem rangesInvalid_iff (lo hi : Word64) : rangesInvalid lo hi = true ↔ hi.toInt < lo.toInt := by
  exact decide_eq_true_iff

end Machine
end Sys2Proof
end

