-- ==== Sys2Proof/Laws/Lcg.lean ====
section
/-!
SUPPORT. The arithmetic behind the period of the transition (spec/40_core.md R74): for a multiplier that is 1 modulo 4 the sum of
its first `d` powers has exactly the factors 2 that `d` has, and `d` draws move the state word by that sum times an odd
number.
-/
namespace Sys2Proof.Laws

/-- The sum of the first `d` powers of `a`. -/
def powerSum (a : Nat) : Nat → Nat
  | 0 => 0
  | d + 1 => powerSum a d * a + 1

theorem powerSum_add (a d e : Nat) : powerSum a (d + e) = powerSum a d * a ^ e + powerSum a e := by
  induction e with
  | zero => simp [powerSum]
  | succ e ih => rw [← Nat.add_assoc, powerSum, ih, powerSum, pow_succ]; ring

theorem powerSum_double (a d : Nat) : powerSum a (d + d) = powerSum a d * (a ^ d + 1) := by
  rw [powerSum_add]; ring

theorem pow_mod_four {a : Nat} (h : a % 4 = 1) (d : Nat) : a ^ d % 4 = 1 := by
  simp [Nat.pow_mod, h]

theorem powerSum_mod_two {a : Nat} (h : a % 4 = 1) (d : Nat) : powerSum a d % 2 = d % 2 := by
  induction d with
  | zero => rfl
  | succ d ih =>
    have ha : a % 2 = 1 := by omega
    rw [powerSum, Nat.add_mod, Nat.mul_mod, ha, ih]
    simp [Nat.add_mod]

/-- A power of two divides the sum exactly when it divides the number of terms. -/
theorem two_pow_dvd_powerSum {a : Nat} (h : a % 4 = 1) (k d : Nat) : 2 ^ k ∣ powerSum a d ↔ 2 ^ k ∣ d := by
  induction k generalizing d with
  | zero => simp
  | succ k ih =>
    obtain ⟨e, rfl | rfl⟩ := Nat.even_or_odd' d
    · obtain ⟨q, hq⟩ : ∃ q, a ^ e + 1 = 2 * (2 * q + 1) := ⟨a ^ e / 4, by have := pow_mod_four h e; omega⟩
      have hodd : Nat.Coprime (2 ^ k) (2 * q + 1) := by
        apply Nat.Coprime.pow_left
        simp
      have sum : powerSum a (2 * e) = 2 * (powerSum a e * (2 * q + 1)) := by
        rw [show 2 * e = e + e by ring, powerSum_double, hq]; ring
      rw [sum, pow_succ, mul_comm (2 ^ k) 2, Nat.mul_dvd_mul_iff_left two_pos, Nat.mul_dvd_mul_iff_left two_pos, ← ih e]
      exact hodd.dvd_mul_right
    · have hs := powerSum_mod_two h (2 * e + 1)
      have two : (2 : Nat) ∣ 2 ^ (k + 1) := dvd_pow_self 2 (by omega)
      constructor <;> intro hd <;> have := two.trans hd <;> omega

/-- The state after `d` draws, exactly and without reduction: the start plus the power sum times an odd number. -/
theorem exact_draws (a c y d : Nat) (ha : 1 ≤ a) :
    (fun z => z * a + c)^[d] y = y + powerSum a d * ((a - 1) * y + c) := by
  obtain ⟨b, rfl⟩ : ∃ b, a = b + 1 := ⟨a - 1, by omega⟩
  induction d with
  | zero => simp [powerSum]
  | succ d ih =>
    rw [Function.iterate_succ_apply', ih, powerSum]
    simp only [Nat.add_sub_cancel]
    ring

theorem multiplier_mod_four (p : Params) : p.multiplier.toNat % 4 = 1 := by
  rw [Params.multiplier, BitVec.toNat_append, Nat.shiftLeft_eq, ← Nat.mul_comm (2 ^ 2),
    ← Nat.two_pow_add_eq_or_of_lt (by decide : (1#2).toNat < 2 ^ 2)]
  simp

theorem increment_mod_two (p : Params) : p.increment.toNat % 2 = 1 := by
  rw [Params.increment, BitVec.toNat_append, Nat.shiftLeft_eq, ← Nat.mul_comm (2 ^ 1),
    ← Nat.two_pow_add_eq_or_of_lt (by decide : (1#1).toNat < 2 ^ 1)]
  simp

/-- The draws are the exact ones modulo 2^64. -/
theorem orbit_toNat (p : Params) (x : Word64) (d : Nat) :
    (p.orbit x d).toNat = (fun z => z * p.multiplier.toNat + p.increment.toNat)^[d] x.toNat % 2 ^ 64 := by
  induction d with
  | zero => simp [Params.orbit, Nat.mod_eq_of_lt x.isLt]
  | succ d ih =>
    rw [Function.iterate_succ_apply', Params.orbit, BitVec.toNat_add, BitVec.toNat_mul, ih]
    simp [Nat.add_mod, Nat.mul_mod]

end Sys2Proof.Laws
end

