-- ==== Sys2Proof/Laws/PerInstr.lean ====
section
/-!
SUPPORT. Statements about every command as syntax, one lemma a constructor.
-/
namespace Sys2Proof.Laws.TableRow

/-- The encoder's command word belongs to the command's row of the opcode table (spec/30_encoding.md R54). -/
def Statement (i : Instr) : Prop := (rowOf i).holds (encode i).cmd = true

/-- For a row of one word. -/
theorem of_one_word {i : Instr} (mask : (rowOf i).mask = 0xFFFF) (word : (encode i).cmd = (rowOf i).pattern) :
    Statement i := by
  rw [Statement, OpcodeRow.holds, mask, word, beq_iff_eq]
  exact wholeWord_and _

/-- For a row whose SIZE is free. -/
theorem of_low_byte {i : Instr} (mask : (rowOf i).mask = 0x00FF)
    (word : (encode i).cmd.toNat % 256 = (rowOf i).pattern.toNat) : Statement i := by
  rw [Statement, OpcodeRow.holds, beq_iff_eq, mask]
  exact BitVec.eq_of_toNat_eq ((lowByte_toNat _).trans word)

theorem seed (v : Word64) : Statement (.seed v) := of_one_word rfl rfl
theorem next : Statement .next := of_one_word rfl rfl
theorem rangeu (lo hi : Word64) : Statement (.rangeu lo hi) := of_one_word rfl rfl
theorem ranges (lo hi : Word64) : Statement (.ranges lo hi) := of_one_word rfl rfl
theorem float64 : Statement .float64 := of_one_word rfl rfl
theorem float32 : Statement .float32 := of_one_word rfl rfl
theorem bool : Statement .bool := of_one_word rfl rfl

theorem unsigned (n : SizeField) : Statement (.unsigned n) := by
  refine of_low_byte rfl ?_
  rw [encode, sizedWord_toNat]
  simp [rowOf]

theorem signed (n : SizeField) : Statement (.signed n) := by
  refine of_low_byte rfl ?_
  rw [encode, sizedWord_toNat]
  simp [rowOf]

theorem pick (n : Word64) : Statement (.pick n) := of_one_word rfl rfl

end Sys2Proof.Laws.TableRow
end

