-- ==== Sys2Proof/Laws/State.lean ====
section
/-!
SUPPORT. What each update of the state leaves in each field, so that no proof unfolds a record update.
-/
namespace Sys2Proof.Machine

variable (s : State) (st : Status) (v : Word64) (r : Request) (nbits w : Nat)

@[simp] theorem respond_params : (respond st v s).params = s.params := rfl
@[simp] theorem respond_state : (respond st v s).state = s.state := rfl
@[simp] theorem respond_seeded : (respond st v s).seeded = s.seeded := rfl
@[simp] theorem respond_requests : (respond st v s).requests = s.requests := rfl
@[simp] theorem respond_responses : (respond st v s).responses = s.responses ++ [{ status := st, result := v }] := rfl

@[simp] theorem withFetchWord_params : (s.withFetchWord nbits w).params = s.params := rfl
@[simp] theorem withFetchWord_state : (s.withFetchWord nbits w).state = s.state := rfl
@[simp] theorem withFetchWord_seeded : (s.withFetchWord nbits w).seeded = s.seeded := rfl
@[simp] theorem withFetchWord_requests :
    (s.withFetchWord nbits w).requests = requestOfTableBits nbits w :: s.requests := rfl
@[simp] theorem withFetchWord_responses : (s.withFetchWord nbits w).responses = s.responses := rfl

@[simp] theorem presentRequest_params : (presentRequest r s).params = s.params := rfl
@[simp] theorem presentRequest_state : (presentRequest r s).state = s.state := rfl
@[simp] theorem presentRequest_seeded : (presentRequest r s).seeded = s.seeded := rfl
@[simp] theorem presentRequest_requests : (presentRequest r s).requests = s.requests ++ [r] := rfl
@[simp] theorem presentRequest_responses : (presentRequest r s).responses = s.responses := rfl

@[simp] theorem resetEvent_params : (resetEvent s).params = s.params := rfl
@[simp] theorem resetEvent_state : (resetEvent s).state = none := rfl
@[simp] theorem resetEvent_seeded : (resetEvent s).seeded = false := rfl
@[simp] theorem resetEvent_requests : (resetEvent s).requests = [] := rfl
@[simp] theorem resetEvent_responses : (resetEvent s).responses = [] := rfl

@[simp] theorem reset_params : State.reset.params = Config.params := rfl
@[simp] theorem reset_state : State.reset.state = none := rfl
@[simp] theorem reset_seeded : State.reset.seeded = false := rfl
@[simp] theorem reset_requests : State.reset.requests = [] := rfl
@[simp] theorem reset_responses : State.reset.responses = [] := rfl

end Sys2Proof.Machine
end

