-- ==== Sys2Proof/Tests/Slice0.lean ====
section
/-!
SUPPORT. Tests: words written out from the spec's encodings, the well-formedness smoke test, one or two vectors a command, and for
every statement with hypotheses a state and operands that meet them. Expected results are the spec's own: the rows of
spec/95_test_vectors.md and the worked examples of spec/40_core.md, spec/41_derivation.md and spec/42_selection.md.
-/
namespace Sys2Proof.Tests
open Sys2Proof Sys2Proof.Machine

/-- A seeded block with idle channels. -/
def seededAt (p : Params) (x : Word64) : State :=
  { params := p, state := some x, seeded := true, requests := [], responses := [] }

/-- A block after reset, with the parameters of a test configuration. -/
def unseededBlock (p : Params) : State := resetEvent (seededAt p 0)

/-- The next state of an answer. -/
def after : Answer → Option State
  | .next t => some t
  | .fault _ => none
  | .refused _ => none

/-- The block after a command answered `{status, result}` with `STATE = x`. -/
def answered (p : Params) (x : Word64) (status : Status) (result : Word64) : Option State :=
  some { seededAt p x with responses := [⟨status, result⟩] }

/-! ### Configurations (00_scope R6) -/

theorem test_ref_parameters :
    Params.ref.multiplier = 0x5851F42D4C957F2D ∧ Params.ref.increment = 0x14057B7EF767814F := by decide
theorem test_toy_and_unit_parameters :
    Params.toy.multiplier = 5 ∧ Params.toy.increment = 1 ∧ Params.unit.multiplier = 1 ∧ Params.unit.increment = 1 := by
  decide
theorem test_pair_admitted : Params.ofPair 0x5851F42D4C957F2D 0x14057B7EF767814F = some Params.ref := by decide
theorem test_multiplier_3_refused : Params.ofPair 3 1 = none := by decide
theorem test_increment_even_refused : Params.ofPair 5 2 = none := by decide

/-! ### Well-formedness (30_encoding R58): each check refuses an ill-formed term -/

theorem test_seed_too_large_refused : (Source.seed (2 ^ 64)).wellFormed = false := by decide
theorem test_rangeu_min_too_large_refused : (Source.rangeu (2 ^ 64) 0).wellFormed = false := by decide
theorem test_rangeu_max_too_large_refused : (Source.rangeu 0 (2 ^ 64)).wellFormed = false := by decide
theorem test_ranges_min_too_small_refused : (Source.ranges (-2 ^ 63 - 1) 0).wellFormed = false := by decide
theorem test_ranges_max_too_large_refused : (Source.ranges 0 (2 ^ 63)).wellFormed = false := by decide
theorem test_unsigned_256_refused : (Source.unsigned 256).wellFormed = false := by decide
theorem test_signed_256_refused : (Source.signed 256).wellFormed = false := by decide
theorem test_pick_too_large_refused : (Source.pick (2 ^ 64)).wellFormed = false := by decide
theorem test_extreme_operands_accepted :
    (Source.ranges (-2 ^ 63) (2 ^ 63 - 1)).wellFormed = true ∧ (Source.rangeu 0 (2 ^ 64 - 1)).wellFormed = true ∧
      (Source.unsigned 255).wellFormed = true := by decide

/-! ### Decoding: words written out bit by bit from the patterns of 30_encoding R54 -/

theorem test_decode_seed : decode ⟨0b0000000000000001, 0x2A, 7⟩ = .legal (.seed 0x2A) := by decide
theorem test_decode_next : decode ⟨0b0000000000000010, 5, 7⟩ = .legal .next := by decide
theorem test_decode_rangeu : decode ⟨0b0000000000000011, 1, 6⟩ = .legal (.rangeu 1 6) := by decide
theorem test_decode_ranges : decode ⟨0b0000000000000100, 3, 0xFFFFFFFFFFFFFFFB⟩ = .legal (.ranges 3 (-5)) := by decide
theorem test_decode_float64 : decode ⟨0b0000000000000101, 0, 0⟩ = .legal .float64 := by decide
theorem test_decode_float32 : decode ⟨0b0000000000000110, 0, 0⟩ = .legal .float32 := by decide
theorem test_decode_bool : decode ⟨0b0000000000000111, 0, 0⟩ = .legal .bool := by decide
theorem test_decode_unsigned : decode ⟨0b0001000000001000, 0, 0⟩ = .legal (.unsigned 16) := by decide
theorem test_decode_signed : decode ⟨0b1111111100001001, 0, 0⟩ = .legal (.signed 255) := by decide
theorem test_decode_pick : decode ⟨0b0000000000001010, 3, 9⟩ = .legal (.pick 3) := by decide
theorem test_decode_reserved_opcodes :
    decode ⟨0x0000, 0, 0⟩ = .illegal .reservedOpcode ∧ decode ⟨0x000B, 0, 0⟩ = .illegal .reservedOpcode ∧
      decode ⟨0x000C, 0, 0⟩ = .illegal .reservedOpcode ∧ decode ⟨0x000D, 0, 0⟩ = .illegal .reservedOpcode ∧
      decode ⟨0x000E, 0, 0⟩ = .illegal .reservedOpcode ∧ decode ⟨0x000F, 0, 0⟩ = .illegal .reservedOpcode := by
  decide
theorem test_decode_reserved_bits :
    decode ⟨0x0012, 0, 0⟩ = .illegal .reservedBits ∧ decode ⟨0x00F7, 0, 0⟩ = .illegal .reservedBits ∧
      decode ⟨0x4018, 0, 0⟩ = .illegal .reservedBits := by decide
theorem test_decode_misplaced_size :
    decode ⟨0x0101, 0, 0⟩ = .illegal .misplacedSize ∧ decode ⟨0x800A, 0, 0⟩ = .illegal .misplacedSize := by decide
theorem test_table_word_carries_operands :
    decodeTableWord 144 (0x0003 + 1 * 2 ^ 16 + 6 * 2 ^ 80) = some (.rangeu 1 6) ∧
      decodeTableWord 16 (0x0003 + 1 * 2 ^ 16) = some (.rangeu 0 0) ∧ decodeTableWord 16 0x0012 = none := by decide
theorem test_fetched_word_is_performed_first :
    after (step (State.reset.withFetchWord 16 0x0002)) =
      some { State.reset with responses := [⟨.notSeeded, 0⟩] } := rfl

/-! ### Assembler (30_encoding R58) -/

theorem test_line_rangeu : Assembler.readLine ['R', 'A', 'N', 'G', 'E', 'U', ' ', '1', ',', ' ', '6'] = some (.rangeu 1 6) := by
  decide
theorem test_line_ranges_negative :
    Assembler.readLine ['R', 'A', 'N', 'G', 'E', 'S', ' ', '-', '3', ',', ' ', '0', 'x', '1', 'F'] =
      some (.ranges (-3) 31) := by decide
theorem test_line_without_operand_refused : Assembler.readLine ['S', 'E', 'E', 'D'] = none := by decide
theorem test_listing_of_seed_42 :
    Assembler.listing (encode (.seed 42)) =
      ['0', '0', '0', '1', ' ', '0', '0', '0', '0', '0', '0', '0', '0', '0', '0', '0', '0', '0', '0', '2', 'A', ' ',
        '0', '0', '0', '0', '0', '0', '0', '0', '0', '0', '0', '0', '0', '0', '0', '0'] := by decide

/-! ### Commands -/

theorem test_seed_replaces_state :
    after (exec (.seed 0) (seededAt .ref 42)) = answered .ref 0 .ok 0 := by decide
theorem test_seed_on_unseeded_block :
    after (exec (.seed 42) (unseededBlock .ref)) = answered .ref 42 .ok 0 := by decide
/-- V1, REF, seed 42. -/
theorem test_next_ref :
    after (exec .next (seededAt .ref 42)) = answered .ref 0x91778AED87EE5EB1 .ok 0x91778AED87EE5EB1 := by decide
/-- V1, UNIT: the addition wraps to 0. -/
theorem test_next_wraps :
    after (exec .next (seededAt .unit 0xFFFFFFFFFFFFFFFF)) = answered .unit 0 .ok 0 := by decide
/-- V4: two rejected draws before the accepted one. -/
theorem test_rangeu_rejects_twice :
    after (exec (.rangeu 0 0x8000000000000000) (seededAt .ref 1)) =
      answered .ref 0xA5FAE1992097AA0E .ok 0x52FD70CC904BD507 := by decide
/-- V4: the full range returns the draw. -/
theorem test_rangeu_full_range :
    after (exec (.rangeu 0 0xFFFFFFFFFFFFFFFF) (seededAt .ref 42)) =
      answered .ref 0x91778AED87EE5EB1 .ok 0x91778AED87EE5EB1 := by decide
/-- V4: RANGES -10, -5 gives -7. -/
theorem test_ranges_negative :
    after (exec (.ranges (-10) (-5)) (seededAt .ref 42)) =
      answered .ref 0x91778AED87EE5EB1 .ok 0xFFFFFFFFFFFFFFF9 := by decide
/-- V4, invalid ranges: RANGES 0, -2^63. -/
theorem test_ranges_invalid :
    after (exec (.ranges 0 0x8000000000000000) (seededAt .ref 42)) = answered .ref 42 .invalidRange 0 := by decide
/-- V2: the largest value. -/
theorem test_float64_largest :
    after (exec .float64 (seededAt .unit 0xFFFFFFFFFFFFF7FF)) =
      answered .unit 0xFFFFFFFFFFFFF800 .ok 0x3FEFFFFFFFFFFFFF := by decide
/-- V2: the smallest value that is not zero, 2^-53. -/
theorem test_float64_smallest :
    after (exec .float64 (seededAt .unit 0x7FF)) = answered .unit 0x800 .ok 0x3CA0000000000000 := by decide
/-- V2. -/
theorem test_float32_middle :
    after (exec .float32 (seededAt .unit 0x80FF7FFF12345677)) =
      answered .unit 0x80FF7FFF12345678 .ok 0x000000003F00FF7F := by decide
/-- V2: the low 40 bits have no effect. -/
theorem test_float32_zero :
    after (exec .float32 (seededAt .unit 0x000000FFFFFFFFFE)) = answered .unit 0x000000FFFFFFFFFF .ok 0 := by decide
/-- V2. -/
theorem test_bool_true :
    after (exec .bool (seededAt .unit 0x7FFFFFFFFFFFFFFF)) = answered .unit 0x8000000000000000 .ok 1 := by decide
theorem test_bool_false :
    after (exec .bool (seededAt .unit 0x7FFFFFFFFFFFFFFE)) = answered .unit 0x7FFFFFFFFFFFFFFF .ok 0 := by decide
/-- V3. -/
theorem test_unsigned_16 :
    after (exec (.unsigned 16) (seededAt .unit 0x80FF7FFF12345677)) =
      answered .unit 0x80FF7FFF12345678 .ok 0x80FF := by decide
theorem test_unsigned_7_invalid :
    after (exec (.unsigned 7) (seededAt .ref 42)) = answered .ref 42 .invalidBitWidth 0 := by decide
/-- V3. -/
theorem test_signed_32 :
    after (exec (.signed 32) (seededAt .unit 0x80FF7FFF12345677)) =
      answered .unit 0x80FF7FFF12345678 .ok 0xFFFFFFFF80FF7FFF := by decide
theorem test_signed_0_invalid :
    after (exec (.signed 0) (seededAt .ref 42)) = answered .ref 42 .invalidBitWidth 0 := by decide
/-- P3, step 4: the draw 0 is rejected. -/
theorem test_pick_rejects_zero :
    after (exec (.pick 0xFFFFFFFFFFFFFFFF) (seededAt .unit 0xFFFFFFFFFFFFFFFF)) = answered .unit 1 .ok 0 := by decide
/-- V5: PICK 0. -/
theorem test_pick_empty : after (exec (.pick 0) (seededAt .ref 42)) = answered .ref 42 .absent 0 := by decide
/-- V6: NOT_SEEDED comes before INVALID_RANGE, ILLEGAL_COMMAND before NOT_SEEDED. -/
theorem test_check_order :
    after (exec (.rangeu 5 3) (unseededBlock .ref)) = some { unseededBlock .ref with responses := [⟨.notSeeded, 0⟩] } ∧
      after (step { unseededBlock .ref with requests := [⟨0x0802, 0, 0⟩] }) =
        some { unseededBlock .ref with responses := [⟨.illegalCommand, 0⟩] } := by decide

/-! ### The host's side -/

theorem test_host_reference :
    hostReference [10, 20, 30] ⟨.ok, 1⟩ = some 20 ∧ hostReference [10, 20, 30] ⟨.absent, 0⟩ = none := by decide
theorem test_host_bytes :
    hostBytes .littleEndian 0x0102030405060708 = [8, 7, 6, 5, 4, 3, 2, 1] ∧
      hostBytes .bigEndian 0x0102030405060708 = [1, 2, 3, 4, 5, 6, 7, 8] := by decide
theorem test_take_response :
    takeResponse { seededAt .ref 1 with responses := [⟨.ok, 4⟩, ⟨.absent, 0⟩] } =
      some (⟨.ok, 4⟩, { seededAt .ref 1 with responses := [⟨.absent, 0⟩] }) := by decide
theorem test_expansion : (HostOperation.genRangeSigned (-3) 3).expansion = .ranges (-3) 3 := by decide

/-! ### Witnesses: each statement's hypotheses are met -/

theorem witness_ParametersAdmittedAndFixed :
    Params.ofPair 1 1 = some Params.unit ∧
      (∃ t, exec .next (seededAt .toy 0) = .next t) ∧
      (∃ t, step { seededAt .toy 0 with requests := [encode .next] } = .next t) :=
  ⟨by decide, ⟨_, rfl⟩, ⟨_, rfl⟩⟩

theorem witness_ResetHoldsNoGenerator : ∀ v, Instr.next ≠ .seed v := by simp

theorem witness_UnseededBlockAnswersNotSeeded :
    (unseededBlock .ref).seeded = false ∧
      { unseededBlock .ref with requests := [encode .next, encode .bool] }.requests = encode .next :: [encode .bool] ∧
      decode (encode .next) = .legal .next ∧ decode ⟨0x000B, 0, 0⟩ = .illegal .reservedOpcode := by decide

theorem witness_OnlySeedCreatesTheGenerator :
    (∃ t, step { seededAt .ref 1 with requests := [encode .next] } = .next t) ∧
      after (step { unseededBlock .ref with requests := [encode (.seed 7)] }) = answered .ref 7 .ok 0 ∧
      (unseededBlock .ref).seeded = false :=
  ⟨⟨_, rfl⟩, by decide, rfl⟩

theorem witness_DecodeAndEncodeAgree :
    decode ⟨0xFF08, 1, 2⟩ = .legal (.unsigned 255) ∧ decode ⟨0x0003, 1, 2⟩ = .legal (.rangeu 1 2) ∧
      decode ⟨0x0001, 1, 2⟩ = .legal (.seed 1) := by decide

theorem witness_DecodeProcedureIsTotal :
    (0x0000#16).toNat % 16 = 0 ∧ 0xA < (0x000B#16).toNat % 16 ∧
      (1 ≤ (0x00F1#16).toNat % 16 ∧ (0x00F1#16).toNat / 16 % 16 ≠ 0) ∧
      (1 ≤ (0x001A#16).toNat % 16 ∧ (0x001A#16).toNat % 16 ≤ 0xA ∧ (0x001A#16).toNat / 16 % 16 ≠ 0) ∧
      ((0x010A#16).toNat / 16 % 16 = 0 ∧ (0x010A#16).toNat / 256 ≠ 0 ∧ (0x010A#16).toNat % 16 = 0xA) ∧
      (0xFF08#16).toNat % 256 = 0x08 ∧ (0x0009#16).toNat % 256 = 0x09 ∧
      decode ⟨0x0000, 0, 0⟩ = .illegal .reservedOpcode := by decide

theorem witness_OpcodeTableAgreesWithDecode :
    decode ⟨0x4009, 0, 0⟩ = .legal (.signed 64) ∧ (rowOf (.signed 64)).holds 0x4009 = true := by decide

theorem witness_IllegalWordsAreRefused :
    (∃ t, step { seededAt .ref 1 with requests := [⟨0x0000, 0, 0⟩] } = .next t ∧
        (seededAt .ref 1).Answers t ⟨.illegalCommand, 0⟩) ∧
      (0x0010#16).toNat / 16 % 16 ≠ 0 ∧ 0xA < (0x000F#16).toNat % 16 ∧
      ((0x0107#16).toNat / 256 ≠ 0 ∧ (0x0107#16).toNat % 16 ≠ 8 ∧ (0x0107#16).toNat % 16 ≠ 9) :=
  ⟨⟨_, rfl, rfl⟩, by decide, by decide, by decide⟩

theorem witness_EverySizeDecodes :
    (seededAt .ref 42).seeded = true ∧ (seededAt .ref 42).state = some 42 ∧ (8#8).toNat = 8 ∧ (64#8).toNat = 64 ∧
      ((0#8).toNat ≠ 8 ∧ (0#8).toNat ≠ 16 ∧ (0#8).toNat ≠ 32 ∧ (0#8).toNat ≠ 64) ∧
      ((255#8).toNat ≠ 8 ∧ (255#8).toNat ≠ 16 ∧ (255#8).toNat ≠ 32 ∧ (255#8).toNat ≠ 64) := by decide

theorem witness_UnreadOperandsAreIgnored :
    (0x0001#16 ≠ 0x0003 ∧ 0x0001#16 ≠ 0x0004) ∧
      (0x0002#16 ≠ 0x0001 ∧ 0x0002#16 ≠ 0x0003 ∧ 0x0002#16 ≠ 0x0004 ∧ 0x0002#16 ≠ 0x000A) := by decide

theorem witness_AssemblerEncodesItsOperands :
    (Source.seed (2 ^ 64 - 1)).assemble = some ⟨0x0001, 0xFFFFFFFFFFFFFFFF, 0⟩ ∧
      (Source.rangeu 0 (2 ^ 64 - 1)).assemble = some ⟨0x0003, 0, 0xFFFFFFFFFFFFFFFF⟩ ∧
      (Source.ranges (-2 ^ 63) (2 ^ 63 - 1)).assemble = some ⟨0x0004, 0x8000000000000000, 0x7FFFFFFFFFFFFFFF⟩ ∧
      (Source.unsigned 255).assemble = some ⟨0xFF08, 0, 0⟩ ∧ (Source.signed 0).assemble = some ⟨0x0009, 0, 0⟩ ∧
      (Source.pick 0).assemble = some ⟨0x000A, 0, 0⟩ := by decide

/-- The first operands out of range. -/
theorem witness_AssemblerRejectsOperands :
    (Source.seed (2 ^ 64)).assemble = none ∧ (Source.pick (2 ^ 64)).assemble = none ∧
      (Source.rangeu (2 ^ 64) 0).assemble = none ∧ (Source.rangeu 0 (2 ^ 64)).assemble = none ∧
      (Source.ranges (-2 ^ 63 - 1) 0).assemble = none ∧ (Source.ranges 0 (2 ^ 63)).assemble = none ∧
      (Source.unsigned 256).assemble = none ∧ (Source.signed 256).assemble = none := by decide

theorem witness_StepPerformsTheDecodedCommand :
    { seededAt .ref 1 with requests := [encode .bool, encode .next] }.requests = encode .bool :: [encode .next] ∧
      decode (encode .bool) = .legal .bool ∧ decode ⟨0x0012, 0, 0⟩ = .illegal .reservedBits ∧
      (seededAt .ref 1).requests = [] := by decide

theorem witness_ChecksComeInOrder :
    (seededAt .ref 1).seeded = true ∧ (unseededBlock .ref).seeded = false ∧
      decode ⟨0x0000, 0, 0⟩ = .illegal .reservedOpcode ∧ decode ⟨0x0002, 0, 0⟩ = .legal .next ∧
      (decode ⟨0x0003, 1, 0⟩ = .legal (.rangeu 1 0) ∧ (0#64).toNat < (1#64).toNat) ∧
      (decode ⟨0x0004, 0, 0x8000000000000000⟩ = .legal (.ranges 0 0x8000000000000000) ∧
        (0x8000000000000000#64).toInt < (0#64).toInt) ∧
      (decode ⟨0x0708, 0, 0⟩ = .legal (.unsigned 7) ∧ decode ⟨0x4109, 0, 0⟩ = .legal (.signed 65)) ∧
      decode ⟨0x000A, 0, 0⟩ = .legal (.pick 0) := by decide

theorem witness_RefusedCommandsChangeNothing :
    after (step { seededAt .ref 42 with requests := [encode (.unsigned 7)] }) = answered .ref 42 .invalidBitWidth 0 ∧
      Status.invalidBitWidth ≠ .ok := by decide

theorem witness_EachStatusHasItsCondition :
    (∃ t, exec (.pick 0) (seededAt .ref 42) = .next t ∧ (seededAt .ref 42).Answers t ⟨.absent, 0⟩) ∧
      (∃ t, exec (.rangeu 1 0) (seededAt .ref 42) = .next t ∧ (seededAt .ref 42).Answers t ⟨.invalidRange, 0⟩) ∧
      (∃ t, exec (.signed 9) (seededAt .ref 42) = .next t ∧ (seededAt .ref 42).Answers t ⟨.invalidBitWidth, 0⟩) ∧
      (∃ t, exec .bool (unseededBlock .ref) = .next t ∧ (unseededBlock .ref).Answers t ⟨.notSeeded, 0⟩) :=
  ⟨⟨_, rfl, rfl⟩, ⟨_, rfl, rfl⟩, ⟨_, rfl, rfl⟩, ⟨_, rfl, rfl⟩⟩

theorem witness_SeedLoadsTheStateWord : (0x0011#16).toNat % 16 = 1 ∧ 0x0011#16 ≠ 0x0001 := by decide

theorem witness_NextReturnsTheNewState :
    (unseededBlock .ref).seeded = false ∧ (seededAt .ref 0).seeded = true ∧ (seededAt .ref 0).state = some 0 ∧
      (0xFF02#16).toNat % 16 = 2 ∧ 0xFF02#16 ≠ 0x0002 := by decide

theorem witness_RangeuDrawsWithinUnsignedBounds :
    (unseededBlock .ref).seeded = false ∧ (seededAt .ref 42).seeded = true ∧ (seededAt .ref 42).state = some 42 ∧
      (0#64).toNat < (1#64).toNat ∧ (5#64).toNat ≤ (5#64).toNat ∧
      2 ^ 64 = (0xFFFFFFFFFFFFFFFF#64).toNat - (0#64).toNat + 1 ∧ (0x0103#16).toNat % 16 = 3 := by decide

theorem witness_RangesDrawsWithinSignedBounds :
    (unseededBlock .ref).seeded = false ∧ (seededAt .ref 42).seeded = true ∧ (seededAt .ref 42).state = some 42 ∧
      (-1#64).toInt < (0#64).toInt ∧ (0x8000000000000000#64).toInt ≤ (0x7FFFFFFFFFFFFFFF#64).toInt ∧
      ((2 ^ 64 : Nat) : Int) = (0x7FFFFFFFFFFFFFFF#64).toInt - (0x8000000000000000#64).toInt + 1 ∧
      (0x0014#16).toNat % 16 = 4 := by decide

theorem witness_Float64ScalesTheTopBits :
    (unseededBlock .ref).seeded = false ∧ (seededAt .unit 0x7FE).seeded = true ∧
      (seededAt .unit 0x7FE).state = some 0x7FE ∧ (0x0015#16).toNat % 16 = 5 := by decide

theorem witness_Float32ScalesTheTopBits :
    (unseededBlock .ref).seeded = false ∧ (seededAt .unit 0xFFFFFFFFFE).seeded = true ∧
      (seededAt .unit 0xFFFFFFFFFE).state = some 0xFFFFFFFFFE ∧ (0x0016#16).toNat % 16 = 6 := by decide

theorem witness_BoolReturnsTheTopBit :
    (unseededBlock .ref).seeded = false ∧ (seededAt .unit 0x7FFFFFFFFFFFFFFF).seeded = true ∧
      (seededAt .unit 0x7FFFFFFFFFFFFFFF).state = some 0x7FFFFFFFFFFFFFFF ∧ (0x0017#16).toNat % 16 = 7 := by decide

theorem witness_UnsignedTakesTheTopBits :
    (unseededBlock .ref).seeded = false ∧ (seededAt .ref 42).seeded = true ∧ (seededAt .ref 42).state = some 42 ∧
      (64#8).toNat = 64 ∧ ((65#8).toNat ≠ 8 ∧ (65#8).toNat ≠ 16 ∧ (65#8).toNat ≠ 32 ∧ (65#8).toNat ≠ 64) ∧
      (0x4008#16).toNat % 256 = 8 ∧ ((0x4018#16).toNat % 16 = 8 ∧ (0x4018#16).toNat % 256 ≠ 8) := by decide

theorem witness_SignedTakesTheTopBits :
    (unseededBlock .ref).seeded = false ∧ (seededAt .ref 42).seeded = true ∧ (seededAt .ref 42).state = some 42 ∧
      (8#8).toNat = 8 ∧ ((0#8).toNat ≠ 8 ∧ (0#8).toNat ≠ 16 ∧ (0#8).toNat ≠ 32 ∧ (0#8).toNat ≠ 64) ∧
      (0x0809#16).toNat % 256 = 9 ∧ ((0x0019#16).toNat % 16 = 9 ∧ (0x0019#16).toNat % 256 ≠ 9) := by decide

theorem witness_PickDrawsAnIndex :
    (unseededBlock .ref).seeded = false ∧ (seededAt .ref 42).seeded = true ∧ (seededAt .ref 42).state = some 42 ∧
      (1#64 ≠ 0 ∧ 0xFFFFFFFFFFFFFFFF#64 ≠ 0) ∧ (0x010A#16).toNat % 16 = 10 := by decide

theorem witness_LowBitsHaveShortPeriods : 63 < 64 := by decide

theorem witness_RangeMapEndsWithinThreshold :
    2 ^ 64 = (0xFFFFFFFFFFFFFFFF#64).toNat + 1 ∧ 2 ^ 64 % 2 ^ 64 = 0 ∧ 2 ^ 64 % 6 = 4 := by decide

theorem witness_ThresholdCountsRejectedDraws : 1 ≤ 2 ^ 64 ∧ threshold 6 = 4 ∧ threshold (2 ^ 63 + 1) = 2 ^ 63 - 1 := by
  decide

theorem witness_RangeMapIsUniform : 1 ≤ 6 ∧ 6 ≤ 2 ^ 64 ∧ 5 < 6 := by decide

theorem witness_NarrowDatapathAgrees :
    1 ≤ 2 ^ 64 - 1 ∧ 2 ^ 64 - 1 < 2 ^ 64 ∧ 6 ≤ lo64 ((0x91778AED87EE5EB1#64).toNat * 6) := by decide

theorem witness_PowerOfTwoRangeDrawsOnce :
    (seededAt .ref 42).seeded = true ∧ (seededAt .ref 42).state = some 42 ∧
      (0xFFFFFFFFFFFFFFFF#64).toNat = (0#64).toNat + (2 ^ 64 - 1) ∧ (5#64).toNat = (5#64).toNat + (2 ^ 0 - 1) := by decide

theorem witness_Float64PatternIsExact : f64 1 = 0x3CA0000000000000 ∧ (1#53) ≠ 0 ∧ f64 0 = 0 := by decide

theorem witness_Float32PatternIsExact : f32 1 = 0x33800000 ∧ (1#24) ≠ 0 ∧ f32 0 = 0 := by decide

theorem witness_FloatsStayBelowOne :
    (seededAt .unit 0xFFFFFFFFFFFFFFFE).seeded = true ∧
      (seededAt .unit 0xFFFFFFFFFFFFFFFE).state = some 0xFFFFFFFFFFFFFFFE := by decide

theorem witness_PickedElementIsInTheSequence :
    (seededAt .ref 42).seeded = true ∧ (seededAt .ref 42).state = some 42 ∧ [true] ≠ [] ∧ [true].length < 2 ^ 64 := by
  decide

theorem witness_DrawingCommandsAdvanceTheState :
    (∃ t, exec .next (seededAt .unit 1) = .next t ∧ (seededAt .unit 1).Answers t ⟨.ok, 2⟩) ∧
      (∀ w, Instr.next ≠ .seed w) ∧
      (∃ t u, exec (.seed 3) (seededAt .unit 1) = .next t ∧ exec (.seed 3) t = .next u) :=
  ⟨⟨_, rfl, rfl⟩, by simp, ⟨_, _, rfl, rfl⟩⟩

theorem witness_StepKeepsTheInvariant :
    (seededAt .ref 42).Inv ∧ { seededAt .ref 42 with requests := [encode .next] }.Inv ∧
      ∃ t, step { seededAt .ref 42 with requests := [encode .next] } = .next t :=
  ⟨by decide, by decide, ⟨_, rfl⟩⟩

theorem witness_EveryRequestIsAnswered :
    { seededAt .ref 42 with requests := [encode (.pick 3)] }.Inv ∧
      { seededAt .ref 42 with requests := [encode (.pick 3)] }.requests = encode (.pick 3) :: [] ∧
      { unseededBlock .ref with requests := [⟨0xFFFF, 0, 0⟩] }.Inv ∧
      (unseededBlock .ref).Inv ∧ (unseededBlock .ref).requests = [] := by decide

theorem witness_OneResponsePerRequestInOrder :
    { unseededBlock .ref with requests := [encode .next, encode (.seed 1), encode .next] }.Inv ∧
      [encode .next, encode (.seed 1), encode .next] = [encode .next, encode (.seed 1)] ++ [encode .next] := by decide

theorem witness_AnswersDependOnTheRegistersAlone :
    (seededAt .ref 42).params = { seededAt .ref 42 with responses := [⟨.ok, 9⟩] }.params ∧
      (seededAt .ref 42).state = { seededAt .ref 42 with responses := [⟨.ok, 9⟩] }.state ∧
      ∃ t, exec .next (seededAt .ref 42) = .next t :=
  ⟨rfl, rfl, ⟨_, rfl⟩⟩

theorem witness_EqualSeedsGiveEqualSequences :
    (seededAt .ref 42).params = (unseededBlock .ref).params ∧
      { seededAt .ref 42 with requests := [encode (.seed 7), encode .next] }.requests =
        encode (.seed 7) :: [encode .next] ∧
      { unseededBlock .ref with requests := [encode (.seed 7), encode .next] }.requests =
        encode (.seed 7) :: [encode .next] := by decide

end Sys2Proof.Tests
end

