-- ==== Sys2Proof/Proofs/Scope.lean ====
section
/-!
SUPPORT. The family 00_scope. The parameters as numbers and the pairs that R5 admits; then everything a command can do to the
state, said once (`exec_cases`), from which the frame on the parameters follows.
-/
namespace Sys2Proof

theorem Params.multiplier_toNat (p : Params) : p.multiplier.toNat = 4 * p.aHigh.toNat + 1 := by
  rw [Params.multiplier, BitVec.toNat_append, Nat.shiftLeft_eq, ← Nat.mul_comm (2 ^ 2),
    ← Nat.two_pow_add_eq_or_of_lt (by decide : (1#2).toNat < 2 ^ 2)]
  rfl

theorem Params.increment_toNat (p : Params) : p.increment.toNat = 2 * p.cHigh.toNat + 1 := by
  rw [Params.increment, BitVec.toNat_append, Nat.shiftLeft_eq, ← Nat.mul_comm (2 ^ 1),
    ← Nat.two_pow_add_eq_or_of_lt (by decide : (1#1).toNat < 2 ^ 1)]
  rfl

theorem Params.ofPair_isSome (a c : Word64) :
    (Params.ofPair a c).isSome = true ↔ a.toNat % 4 = 1 ∧ c.toNat % 2 = 1 := by
  simp [Params.ofPair]

/-- An admitted pair is stored without loss: the bits that `ofPair` drops are the ones R5 fixes. -/
theorem Params.ofPair_values {a c : Word64} {p : Params} (h : Params.ofPair a c = some p) :
    p.multiplier = a ∧ p.increment = c := by
  obtain ⟨ha, hc⟩ := (Params.ofPair_isSome a c).mp (by simp [h])
  have stored : p = { aHigh := a.extractLsb' 2 62, cHigh := c.extractLsb' 1 63 } := by
    simpa [Params.ofPair, ha, hc] using h.symm
  refine ⟨BitVec.eq_of_toNat_eq ?_, BitVec.eq_of_toNat_eq ?_⟩
  · rw [Params.multiplier_toNat, stored, BitVec.extractLsb'_toNat, Nat.shiftRight_eq_div_pow]
    omega
  · rw [Params.increment_toNat, stored, BitVec.extractLsb'_toNat, Nat.shiftRight_eq_div_pow]
    omega

namespace Machine

/-- What a command other than SEED does to the state `s` when it ends in a next state: it raises an exception, or, on a
seeded block, it answers OK and leaves another state word. -/
def RaisesOrDraws (s : State) (answer : Answer) : Prop :=
  ∀ t, answer = .next t →
    (∃ e, e ≠ .ok ∧ t = respond e 0 s) ∨
      (s.seeded = true ∧ ∃ v y, t = respond .ok v { s with state := some y })

section
variable {s : State}

theorem raise_raisesOrDraws {e : Status} (he : e ≠ .ok) : RaisesOrDraws s (raise e s) := by
  rintro t ⟨⟩
  exact .inl ⟨e, he, rfl⟩

theorem respondDraw_raisesOrDraws (hs : s.seeded = true) (f : Word64 → Word64) :
    RaisesOrDraws s (respondDraw f s) := by
  intro t h
  cases hx : s.state with
  | none => rw [respondDraw_unwritten hx] at h; cases h
  | some x => rw [respondDraw_written hx] at h; cases h; exact .inr ⟨hs, _, _, rfl⟩

theorem respondRange_raisesOrDraws (hs : s.seeded = true) (lo span : Word64) :
    RaisesOrDraws s (respondRange lo span s) := by
  intro t h
  obtain ⟨-, h'⟩ | ⟨x, -, -, h'⟩ | ⟨x, y, v, -, -, h'⟩ := respondRange_cases lo span s <;> rw [h'] at h <;> cases h
  exact .inr ⟨hs, v, y, rfl⟩

theorem whenSeeded_raisesOrDraws {command : State → Answer}
    (h : s.seeded = true → RaisesOrDraws s (command s)) : RaisesOrDraws s (whenSeeded command s) := by
  cases hs : s.seeded with
  | false => rw [whenSeeded_unseeded hs]; exact raise_raisesOrDraws (by decide)
  | true => rw [whenSeeded_seeded hs]; exact h hs

theorem ite_raisesOrDraws {c : Prop} [Decidable c] {a b : Answer}
    (ha : RaisesOrDraws s a) (hb : RaisesOrDraws s b) : RaisesOrDraws s (if c then a else b) := by
  split
  · exact ha
  · exact hb

theorem exec_raisesOrDraws {i : Instr} (hi : ∀ v, i ≠ .seed v) : RaisesOrDraws s (exec i s) := by
  cases i with
  | seed v => exact absurd rfl (hi v)
  | next | float64 | float32 | bool =>
    simp only [exec_next, exec_float64, exec_float32, exec_bool]
    exact whenSeeded_raisesOrDraws fun hs => respondDraw_raisesOrDraws hs _
  | rangeu | ranges | pick =>
    simp only [exec_rangeu, exec_ranges, exec_pick]
    refine whenSeeded_raisesOrDraws fun hs => ?_
    exact ite_raisesOrDraws (raise_raisesOrDraws (by decide)) (respondRange_raisesOrDraws hs _ _)
  | unsigned | signed =>
    simp only [exec_unsigned, exec_signed]
    refine whenSeeded_raisesOrDraws fun hs => ?_
    exact ite_raisesOrDraws (respondDraw_raisesOrDraws hs _) (raise_raisesOrDraws (by decide))

end

/-- Everything a command can do: SEED loads its operand, and any other command raises an exception or draws. -/
theorem exec_cases {i : Instr} {s t : State} (h : exec i s = .next t) :
    (∃ v, i = .seed v ∧ t = respond .ok 0 { s with state := some v, seeded := true }) ∨
      (∃ e, e ≠ .ok ∧ t = respond e 0 s) ∨
      (s.seeded = true ∧ ∃ v y, t = respond .ok v { s with state := some y }) := by
  by_cases hi : ∃ v, i = .seed v
  · obtain ⟨v, rfl⟩ := hi
    rw [exec_seed] at h
    cases h
    exact .inl ⟨v, rfl, rfl⟩
  · exact .inr (exec_raisesOrDraws (fun v hv => hi ⟨v, hv⟩) t h)

/-- Everything a step can do: idle without a request, refuse an illegal word, or perform the decoded command on the
state less the request. -/
theorem step_cases {s t : State} (h : step s = .next t) :
    (s.requests = [] ∧ t = s) ∨
      ∃ r rest, s.requests = r :: rest ∧
        ((∃ why, decode r = .illegal why ∧ t = respond .illegalCommand 0 { s with requests := rest }) ∨
          ∃ i, decode r = .legal i ∧ exec i { s with requests := rest } = .next t) := by
  cases hq : s.requests with
  | nil =>
    rw [step, hq] at h
    cases h
    exact .inl ⟨rfl, rfl⟩
  | cons r rest =>
    rw [step_of_request hq] at h
    refine .inr ⟨r, rest, rfl, ?_⟩
    cases hd : decode r with
    | illegal why =>
      rw [perform_of_illegal hd] at h
      cases h
      exact .inl ⟨why, rfl, rfl⟩
    | legal i => exact .inr ⟨i, rfl, by rwa [perform_of_legal hd] at h⟩

theorem exec_params {i : Instr} {s t : State} (h : exec i s = .next t) : t.params = s.params := by
  obtain ⟨v, -, rfl⟩ | ⟨e, -, rfl⟩ | ⟨-, v, y, rfl⟩ := exec_cases h <;> rfl

theorem step_params {s t : State} (h : step s = .next t) : t.params = s.params := by
  obtain ⟨-, rfl⟩ | ⟨r, rest, -, ⟨why, -, rfl⟩ | ⟨i, -, hi⟩⟩ := step_cases h
  · rfl
  · rfl
  · rw [exec_params hi]

end Machine

namespace Proofs

/-- Settles O1: the stored parameters meet R5 by their form, `ofPair` admits exactly the pairs that do, and the frame of
every command and step holds the parameters. -/
theorem parametersAdmittedAndFixed : Obligations.ParametersAdmittedAndFixed :=
  ⟨fun p => ⟨Laws.multiplier_mod_four p, Laws.increment_mod_two p⟩, Params.ofPair_isSome,
    fun _ _ _ => Params.ofPair_values, fun _ _ _ => Machine.exec_params, fun _ _ => Machine.step_params⟩

end Proofs
end Sys2Proof
end

