-- ==== Sys2Proof/Proofs/Period.lean ====
section
/-!
SUPPORT. The draws run through every state word before one repeats (spec/40_core.md R74), so the rejection loop of
spec/41_derivation.md R80 ends: the state word of all ones is accepted for every range, and it comes up within one period.
-/
namespace Sys2Proof

theorem Params.orbit_add (p : Params) (x : Word64) (i d : Nat) :
    p.orbit x (i + d) = p.orbit (p.orbit x i) d := by
  induction d with
  | zero => rfl
  | succ d ih => rw [← Nat.add_assoc, Params.orbit, ih, Params.orbit]

/-- The low `k` bits return after `d` draws exactly when `2^k` divides `d`: the draws add the power sum of `d` times an odd
number. -/
theorem Params.orbit_modEq_iff (p : Params) (x : Word64) (d : Nat) {k : Nat} (hk : k ≤ 64) :
    (p.orbit x d).toNat ≡ x.toNat [MOD 2 ^ k] ↔ 2 ^ k ∣ d := by
  have ha := Laws.multiplier_mod_four p
  have hc := Laws.increment_mod_two p
  have odd : ((p.multiplier.toNat - 1) * x.toNat + p.increment.toNat) % 2 = 1 := by
    rw [Nat.add_mod, Nat.mul_mod, show (p.multiplier.toNat - 1) % 2 = 0 by omega, hc]
    simp
  have coprime : Nat.Coprime (2 ^ k) ((p.multiplier.toNat - 1) * x.toNat + p.increment.toNat) :=
    Nat.Coprime.pow_left k (Nat.coprime_two_left.mpr (Nat.odd_iff.mpr odd))
  rw [Nat.ModEq, Laws.orbit_toNat, Nat.mod_mod_of_dvd _ (pow_dvd_pow 2 hk), Laws.exact_draws _ _ _ _ (by omega),
    ← Laws.two_pow_dvd_powerSum ha, ← coprime.dvd_mul_right]
  exact Nat.add_modEq_left_iff

theorem Params.orbit_eq_self_iff (p : Params) (x : Word64) (d : Nat) : p.orbit x d = x ↔ 2 ^ 64 ∣ d := by
  rw [← p.orbit_modEq_iff x d le_rfl, ← BitVec.toNat_inj, Nat.ModEq, Nat.mod_eq_of_lt x.isLt,
    Nat.mod_eq_of_lt (p.orbit x d).isLt]

/-- No two draws of one period are equal. -/
theorem Params.orbit_injective (p : Params) (x : Word64) :
    Function.Injective fun i : Fin (2 ^ 64) => (p.orbit x (i + 1)).toFin := by
  have ordered : ∀ i j : Fin (2 ^ 64), i ≤ j → p.orbit x (i + 1) = p.orbit x (j + 1) → i = j := by
    intro i j hij h
    have period : 2 ^ 64 ∣ (j - i : Nat) := by
      rw [← p.orbit_eq_self_iff (p.orbit x (i + 1)), ← p.orbit_add, h]
      congr 1
      omega
    have := Nat.eq_zero_of_dvd_of_lt period (by omega)
    omega
  intro i j h
  have h := BitVec.toFin_inj.mp h
  rcases le_total i j with hij | hij
  · exact ordered i j hij h
  · exact (ordered j i hij h.symm).symm

/-- Every state word is one of the first 2^64 draws. -/
theorem Params.exists_orbit_eq (p : Params) (x y : Word64) : ∃ k, 1 ≤ k ∧ k ≤ 2 ^ 64 ∧ p.orbit x k = y := by
  obtain ⟨i, hi⟩ := Finite.surjective_of_injective (p.orbit_injective x) y.toFin
  exact ⟨i + 1, by omega, by omega, BitVec.toFin_inj.mp hi⟩

namespace Machine

/-- The state word of all ones is accepted for every `n` up to 2^64: it leaves `2^64 - n`, which is at least `2^64 mod n`. -/
theorem accepted_allOnes {n : Nat} (hpos : 1 ≤ n) (hn : n ≤ 2 ^ 64) : accepted n (BitVec.allOnes 64) = true := by
  have product : (2 ^ 64 - 1) * n = (2 ^ 64 - n) + (n - 1) * 2 ^ 64 := by omega
  have enough : 2 ^ 64 % n ≤ 2 ^ 64 - n := by
    rw [Nat.mod_eq_sub_mod hn]
    exact Nat.mod_le _ _
  rw [accepted_iff, BitVec.toNat_allOnes, product, Nat.add_mul_mod_self_right, Nat.mod_eq_of_lt (show 2 ^ 64 - n < 2 ^ 64 by omega)]
  exact enough

theorem acceptedDraw_isSome {n : Nat} (hpos : 1 ≤ n) (hn : n ≤ 2 ^ 64) (p : Params) (x : Word64) :
    (acceptedDraw p n wholePeriod x).isSome = true := by
  obtain ⟨k, -, -, -, -, found⟩ | ⟨rejected, -⟩ := acceptedDraw_cases p n wholePeriod x
  · rw [found]
    rfl
  · obtain ⟨k, hk, hk', hy⟩ := p.exists_orbit_eq x (BitVec.allOnes 64)
    have := rejected k hk hk'
    rw [hy, accepted_allOnes hpos hn] at this
    contradiction

/-- R83(b): the range mapping always returns. -/
theorem rangeMap_isSome (p : Params) (lo span x : Word64) : (rangeMap p lo span x).isSome = true := by
  have ends := acceptedDraw_isSome (n := span.toNat + 1) (by omega) (by omega) p x
  obtain ⟨y, hy⟩ := Option.isSome_iff_exists.mp ends
  simp [rangeMap, hy]

end Machine
end Sys2Proof
end

