-- ==== Sys2Proof/Proofs/DecodeFacts.lean ====
section
/-!
SUPPORT. When a request decodes to a command, and which operands its meaning depends on (spec/30_encoding.md R53 to R56,
spec/10_state.md R25).
-/
namespace Sys2Proof

/-- A bit is set that the word's opcode leaves no room for (R56): a reserved one, or one of SIZE where the opcode has no width. -/
def StrayBits (cmd : CmdWord) : Prop :=
  cmd.toNat / 16 % 16 ≠ 0 ∨ (cmd.toNat / 256 ≠ 0 ∧ cmd.toNat % 16 ≠ 8 ∧ cmd.toNat % 16 ≠ 9)

/-- A word with a stray bit is illegal, for a reason that the operands have no part in. -/
theorem decode_of_strayBits {r : Request} (h : StrayBits r.cmd) :
    decode r = .illegal (
      if r.cmd.toNat % 16 = 0 ∨ 0xA < r.cmd.toNat % 16 then .reservedOpcode
      else if r.cmd.toNat / 16 % 16 ≠ 0 then .reservedBits
      else .misplacedSize) := by
  have named := commandOf_none_iff (opField r.cmd) (sizeField r.cmd) r.opa r.opb
  rw [opField_toNat] at named
  rw [decode_eq]
  cases hc : commandOf (opField r.cmd) (sizeField r.cmd) r.opa r.opb with
  | none => rw [if_pos (named.mp hc)]
  | some i =>
    rw [if_neg (mt named.mpr (by simp [hc]))]
    by_cases rsv : r.cmd.toNat / 16 % 16 ≠ 0
    · simp only [if_pos rsv]
    · simp only [if_neg rsv, if_pos (h.resolve_left rsv)]

/-- A request is legal exactly when its word has no stray bit and its opcode names a command. -/
theorem decode_eq_legal_iff (r : Request) (i : Instr) :
    decode r = .legal i ↔
      ¬ StrayBits r.cmd ∧ commandOf (opField r.cmd) (sizeField r.cmd) r.opa r.opb = some i := by
  by_cases stray : StrayBits r.cmd
  · simp [decode_of_strayBits stray, stray]
  · obtain ⟨rsv, size⟩ := not_or.mp stray
    rw [decode_eq]
    cases commandOf (opField r.cmd) (sizeField r.cmd) r.opa r.opb with
    | none => simp
    | some j =>
      simp only [if_neg rsv, if_neg size]
      simp [stray]

/-- A word that is the opcode of a command alone is legal. -/
theorem decode_of_opcode {cmd : CmdWord} {opa opb : Word64} {i : Instr} (word : cmd.toNat < 16)
    (command : commandOf (opField cmd) (sizeField cmd) opa opb = some i) : decode ⟨cmd, opa, opb⟩ = .legal i := by
  have stray : ¬ StrayBits cmd := by
    unfold StrayBits
    omega
  exact (decode_eq_legal_iff _ i).mpr ⟨stray, command⟩

theorem opcode_of_commandOf_seed {op : BitVec 4} {size : SizeField} {opa opb v : Word64}
    (h : commandOf op size opa opb = some (.seed v)) : op.toNat = 1 := by
  unfold commandOf at h
  split at h <;> simp_all

/-- SEED has the one command word 0x0001 (R54). -/
theorem cmd_of_decode_seed {r : Request} {v : Word64} (h : decode r = .legal (.seed v)) : r.cmd = 0x0001 := by
  obtain ⟨stray, command⟩ := (decode_eq_legal_iff r _).mp h
  have op := opcode_of_commandOf_seed command
  rw [opField_toNat] at op
  unfold StrayBits at stray
  refine BitVec.eq_of_toNat_eq (?_ : r.cmd.toNat = 1)
  omega

/-- The opcode map reads `OPA` for SEED, RANGEU, RANGES and PICK, and `OPB` for RANGEU and RANGES. -/
theorem commandOf_congr {op : BitVec 4} {size : SizeField} {opa opa' opb opb' : Word64}
    (ha : op.toNat = 1 ∨ op.toNat = 3 ∨ op.toNat = 4 ∨ op.toNat = 10 → opa = opa')
    (hb : op.toNat = 3 ∨ op.toNat = 4 → opb = opb') :
    commandOf op size opa opb = commandOf op size opa' opb' := by
  unfold commandOf
  split <;> simp_all

/-- The decode procedure reads the operands of the four command words that take any, and of no other word: a word with their
opcode and another bit set is illegal. -/
theorem decode_congr {cmd : CmdWord} {opa opa' opb opb' : Word64}
    (ha : cmd = 0x0001 ∨ cmd = 0x0003 ∨ cmd = 0x0004 ∨ cmd = 0x000A → opa = opa')
    (hb : cmd = 0x0003 ∨ cmd = 0x0004 → opb = opb') :
    decode ⟨cmd, opa, opb⟩ = decode ⟨cmd, opa', opb'⟩ := by
  by_cases stray : StrayBits cmd
  · rw [decode_of_strayBits stray, decode_of_strayBits stray]
  · have command : commandOf (opField cmd) (sizeField cmd) opa opb = commandOf (opField cmd) (sizeField cmd) opa' opb' := by
      unfold StrayBits at stray
      refine commandOf_congr (fun h => ha ?_) (fun h => hb ?_)
      all_goals rw [opField_toNat] at h; bv_omega
    simp only [decode, command]

end Sys2Proof
end

