-- ==== Sys2Proof/Proofs/State.lean ====
section
/-!
SUPPORT. The family 10_state: what a command answers on an unseeded block, what keeps the invariant, and that a command on a
state that meets it always ends, with one response.
-/
namespace Sys2Proof
namespace Machine

section
variable {i : Instr} {s t : State}

/-- Every command but SEED makes the common check first (R110, R112). -/
theorem exec_eq_whenSeeded (hi : ∀ v, i ≠ .seed v) : ∃ command, exec i s = whenSeeded command s := by
  cases i with
  | seed v => exact absurd rfl (hi v)
  | next => exact ⟨_, exec_next s⟩
  | rangeu min max => exact ⟨_, exec_rangeu min max s⟩
  | ranges min max => exact ⟨_, exec_ranges min max s⟩
  | float64 => exact ⟨_, exec_float64 s⟩
  | float32 => exact ⟨_, exec_float32 s⟩
  | bool => exact ⟨_, exec_bool s⟩
  | unsigned n => exact ⟨_, exec_unsigned n s⟩
  | signed n => exact ⟨_, exec_signed n s⟩
  | pick n => exact ⟨_, exec_pick n s⟩

theorem exec_unseeded (hs : s.seeded = false) (hi : ∀ v, i ≠ .seed v) :
    exec i s = .next (respond .notSeeded 0 s) := by
  obtain ⟨command, h⟩ := exec_eq_whenSeeded hi
  rw [h, whenSeeded_unseeded hs]

/-! ### What a command and a step leave -/

/-- A command leaves the waiting requests alone and ends with one response (R24). -/
theorem exec_answers (h : exec i s = .next t) : t.requests = s.requests ∧ ∃ a, s.Answers t a := by
  obtain ⟨v, -, rfl⟩ | ⟨e, -, rfl⟩ | ⟨-, v, y, rfl⟩ := exec_cases h <;> exact ⟨rfl, _, rfl⟩

theorem exec_keeps_seeded (h : exec i s = .next t) (hs : s.seeded = true) : t.seeded = true := by
  obtain ⟨v, -, rfl⟩ | ⟨e, -, rfl⟩ | ⟨-, v, y, rfl⟩ := exec_cases h
  · rfl
  · exact hs
  · exact hs

theorem step_keeps_seeded (h : step s = .next t) (hs : s.seeded = true) : t.seeded = true := by
  obtain ⟨-, rfl⟩ | ⟨r, rest, -, ⟨why, -, rfl⟩ | ⟨i, -, hi⟩⟩ := step_cases h
  · exact hs
  · exact hs
  · exact exec_keeps_seeded hi hs

theorem exec_seeds (h : exec i s = .next t) (hs : s.seeded = false) (ht : t.seeded = true) : ∃ v, i = .seed v := by
  obtain ⟨v, hv, -⟩ | ⟨e, -, rfl⟩ | ⟨hs', -⟩ := exec_cases h
  · exact ⟨v, hv⟩
  · simp [hs] at ht
  · simp [hs] at hs'

theorem step_seeds (h : step s = .next t) (hs : s.seeded = false) (ht : t.seeded = true) :
    ∃ r rest, s.requests = r :: rest ∧ r.cmd = 0x0001 := by
  obtain ⟨-, rfl⟩ | ⟨r, rest, hq, ⟨why, -, rfl⟩ | ⟨i, hd, hi⟩⟩ := step_cases h
  · simp [hs] at ht
  · simp [hs] at ht
  · obtain ⟨v, rfl⟩ := exec_seeds hi hs ht
    exact ⟨r, rest, hq, cmd_of_decode_seed hd⟩

/-! ### The invariant -/

/-- A response keeps the invariant when it carries RESULT 0 unless it is OK (R108). -/
theorem respond_inv {st : Status} {v : Word64} (hv : st ≠ .ok → v = 0) (hs : s.Inv) : (respond st v s).Inv := by
  obtain ⟨registers, responses⟩ := hs
  refine ⟨registers, fun r hr => ?_⟩
  rw [respond_responses, List.mem_append, List.mem_singleton] at hr
  obtain hr | rfl := hr
  · exact responses r hr
  · exact hv

theorem exec_inv (h : exec i s = .next t) (hs : s.Inv) : t.Inv := by
  obtain ⟨registers, responses⟩ := hs
  obtain ⟨v, -, rfl⟩ | ⟨e, -, rfl⟩ | ⟨seeded, v, y, rfl⟩ := exec_cases h
  · exact respond_inv (fun _ => rfl) ⟨rfl, responses⟩
  · exact respond_inv (fun _ => rfl) ⟨registers, responses⟩
  · exact respond_inv (fun h => absurd rfl h) ⟨seeded, responses⟩

theorem step_inv (h : step s = .next t) (hs : s.Inv) : t.Inv := by
  obtain ⟨-, rfl⟩ | ⟨r, rest, -, ⟨why, -, rfl⟩ | ⟨i, -, hi⟩⟩ := step_cases h
  · exact hs
  · exact respond_inv (fun _ => rfl) hs
  · exact exec_inv hi hs

/-! ### Progress -/

/-- The answer is a next state: no fault and no refusal. -/
def Ends (answer : Answer) : Prop := ∃ t, answer = .next t

theorem raise_ends (e : Status) : Ends (raise e s) := ⟨_, rfl⟩

theorem respondDraw_ends {x : Word64} (hx : s.state = some x) (f : Word64 → Word64) : Ends (respondDraw f s) :=
  ⟨_, respondDraw_written hx f⟩

theorem respondRange_ends {x : Word64} (hx : s.state = some x) (lo span : Word64) : Ends (respondRange lo span s) := by
  obtain ⟨hn, -⟩ | ⟨z, -, endless, -⟩ | ⟨z, y, v, -, -, h⟩ := respondRange_cases lo span s
  · simp [hx] at hn
  · have := rangeMap_isSome s.params lo span z
    simp [endless] at this
  · exact ⟨_, h⟩

theorem ite_ends {c : Prop} [Decidable c] {a b : Answer} (ha : Ends a) (hb : Ends b) : Ends (if c then a else b) := by
  split
  · exact ha
  · exact hb

/-- Past the common check of a state that meets the invariant, `STATE` holds a value. -/
theorem whenSeeded_ends {command : State → Answer} (hs : s.seeded = s.state.isSome)
    (h : ∀ x, s.state = some x → Ends (command s)) : Ends (whenSeeded command s) := by
  cases hx : s.state with
  | none => exact ⟨_, whenSeeded_unseeded (by simp [hs, hx]) command⟩
  | some x =>
    rw [whenSeeded_seeded (by simp [hs, hx])]
    exact h x hx

theorem exec_ends (i : Instr) (hs : s.seeded = s.state.isSome) : Ends (exec i s) := by
  cases i with
  | seed v => exact ⟨_, exec_seed v s⟩
  | next | float64 | float32 | bool =>
    simp only [exec_next, exec_float64, exec_float32, exec_bool]
    exact whenSeeded_ends hs fun x hx => respondDraw_ends hx _
  | rangeu | ranges | pick =>
    simp only [exec_rangeu, exec_ranges, exec_pick]
    exact whenSeeded_ends hs fun x hx => ite_ends (raise_ends _) (respondRange_ends hx _ _)
  | unsigned | signed =>
    simp only [exec_unsigned, exec_signed]
    exact whenSeeded_ends hs fun x hx => ite_ends (respondDraw_ends hx _) (raise_ends _)

theorem step_answers {r : Request} {rest : List Request} (hs : s.Inv) (hq : s.requests = r :: rest) :
    ∃ t a, step s = .next t ∧ s.Answers t a ∧ t.requests = rest := by
  rw [step_of_request hq]
  cases hd : decode r with
  | illegal why => exact ⟨_, _, perform_of_illegal hd _, rfl, rfl⟩
  | legal i =>
    obtain ⟨registers, -⟩ := hs
    obtain ⟨t, ht⟩ := exec_ends (s := { s with requests := rest }) i registers
    obtain ⟨requests, a, answer⟩ := exec_answers ht
    exact ⟨t, a, by rw [perform_of_legal hd, ht], answer, requests⟩

theorem step_idle (hq : s.requests = []) : step s = .next s := by
  simp [step, hq]

theorem run_succ_of_step (h : step s = .next t) (k : Nat) : core.run (k + 1) s = core.run k t := by
  have h' : core.step s = .next t := h
  simp only [Host.Core.run, h']

end

/-- The answers to a queue, one a request: the first request's answer, then those of the block after it. -/
theorem run_answers (queue rest : List Request) (s : State) (hs : s.Inv) (hq : s.requests = queue ++ rest) :
    ∃ answers : List Response, answers.length = queue.length ∧
      ∀ k, k ≤ queue.length → ∃ t, core.run k s = .next t ∧
        t.requests = queue.drop k ++ rest ∧ t.responses = s.responses ++ answers.take k := by
  induction queue generalizing s with
  | nil =>
    refine ⟨[], rfl, fun k hk => ?_⟩
    obtain rfl : k = 0 := by simpa using hk
    exact ⟨s, rfl, hq, by simp⟩
  | cons r queue ih =>
    obtain ⟨t, a, ht, answer, requests⟩ := step_answers hs hq
    obtain ⟨answers, length, runs⟩ := ih t (step_inv ht hs) requests
    refine ⟨a :: answers, by simp [length], fun k hk => ?_⟩
    cases k with
    | zero => exact ⟨s, rfl, hq, by simp⟩
    | succ k =>
      obtain ⟨u, hu, waiting, responses⟩ := runs k (by simpa using hk)
      refine ⟨u, by rw [run_succ_of_step ht, hu], waiting, ?_⟩
      simp [responses, answer]

/-- A request's operands matter only through the command it decodes to. -/
theorem perform_congr {r r' : Request} (h : decode r = decode r') (s : State) : perform r s = perform r' s := by
  simp [perform, h]

end Machine

namespace Proofs
open Machine

/-- Settles O45: a response that is not OK carries 0, SEED and the draws write `STATE` on a seeded block. -/
theorem stepKeepsTheInvariant : Obligations.StepKeepsTheInvariant :=
  fun _ _ hs h => step_inv h hs

/-- Settles O46: a draw finds `STATE` written, by the invariant, and the rejection loop ends, by the full period. -/
theorem everyRequestIsAnswered : Obligations.EveryRequestIsAnswered :=
  fun _ hs => ⟨fun _ _ => step_answers hs, step_idle⟩

/-- Settles O47, by induction on the queue. -/
theorem oneResponsePerRequestInOrder : Obligations.OneResponsePerRequestInOrder :=
  fun s rest queue => run_answers queue rest s

/-- Settles O5: of all commands only SEED sets `SEEDED`, and its only word is 0x0001. -/
theorem onlySeedCreatesTheGenerator : Obligations.OnlySeedCreatesTheGenerator :=
  ⟨fun v s => ⟨_, exec_seed v s, rfl⟩, fun _ _ => step_keeps_seeded, fun _ _ => step_seeds, resetEvent_seeded,
    fun _ _ => exec_unseeded⟩

/-- Settles O12: requests that differ in operands they do not read decode alike, so the step performs them alike. -/
theorem unreadOperandsAreIgnored : Obligations.UnreadOperandsAreIgnored := by
  refine ⟨fun opa opb => ⟨decode_of_opcode (by decide) rfl, decode_of_opcode (by decide) rfl,
    decode_of_opcode (by decide) rfl, decode_of_opcode (by decide) rfl⟩, fun s cmd opa opa' opb opb' rest => ?_⟩
  refine ⟨fun h3 h4 => ?_, fun h1 h3 h4 hA => ?_⟩
  · rw [step_of_request rfl, step_of_request rfl]
    exact perform_congr (decode_congr (fun _ => rfl) (by tauto)) _
  · rw [step_of_request rfl, step_of_request rfl]
    exact perform_congr (decode_congr (by tauto) (by tauto)) _

/-- Settles O2: the block after reset is unseeded. -/
theorem resetHoldsNoGenerator : Obligations.ResetHoldsNoGenerator :=
  ⟨rfl, rfl, rfl, rfl, rfl, fun _ => exec_unseeded reset_seeded⟩

/-- Settles O44: after reset `STATE` is unwritten and no response is pending. -/
theorem resetMeetsTheInvariant : Obligations.ResetMeetsTheInvariant :=
  ⟨⟨rfl, by simp⟩, fun s => ⟨rfl, by simp⟩⟩

end Proofs
end Sys2Proof
end

