-- ==== Sys2Proof/Proofs/Memory.lean ====
section
/-!
SUPPORT. The family 20_memory: a request that encodes a command is performed as that command (spec/20_memory.md R38), and a
command that draws leaves another `STATE` (R41), also where it draws until a draw is accepted: the accepted draw comes within
one period (spec/40_core.md R74), before `STATE` returns to its first value.
-/
namespace Sys2Proof

theorem opField_sizedWord (n : SizeField) (low : BitVec 8) : opField (n ++ low) = low.setWidth 4 := by
  refine BitVec.eq_of_toNat_eq ?_
  rw [opField_toNat, sizedWord_toNat, BitVec.toNat_setWidth]
  omega

theorem sizeField_sizedWord (n : SizeField) (low : BitVec 8) : sizeField (n ++ low) = n := by
  refine BitVec.eq_of_toNat_eq ?_
  rw [sizeField_toNat, sizedWord_toNat]
  omega

/-- A word of a SIZE and the opcode of UNSIGNED or SIGNED is legal, whatever the SIZE (R57). -/
theorem decode_of_sizedWord {n : SizeField} {low : BitVec 8} {opa opb : Word64} {i : Instr}
    (sized : low.toNat = 8 ∨ low.toNat = 9) (command : commandOf (low.setWidth 4) n opa opb = some i) :
    decode ⟨n ++ low, opa, opb⟩ = .legal i := by
  have stray : ¬ StrayBits (n ++ low) := by
    unfold StrayBits
    rw [sizedWord_toNat]
    omega
  exact (decode_eq_legal_iff _ i).mpr ⟨stray, by rwa [opField_sizedWord, sizeField_sizedWord]⟩

/-- Every command is read back from its request (R54). -/
theorem decode_encode (i : Instr) : decode (encode i) = .legal i := by
  cases i with
  | seed | next | rangeu | ranges | float64 | float32 | bool | pick => exact decode_of_opcode (by decide) rfl
  | unsigned n => exact decode_of_sizedWord (.inl rfl) rfl
  | signed n => exact decode_of_sizedWord (.inr rfl) rfl

/-- A draw within one period is another word than the one it starts from. -/
theorem Params.orbit_ne_self (p : Params) (x : Word64) {k : Nat} (hpos : 1 ≤ k) (hk : k < 2 ^ 64) : p.orbit x k ≠ x := by
  rw [Ne, p.orbit_eq_self_iff]
  exact Nat.not_dvd_of_pos_of_lt hpos hk

/-- Every other word is drawn before the period ends. -/
theorem Params.exists_orbit_eq_of_ne (p : Params) {x y : Word64} (h : y ≠ x) :
    ∃ k, 1 ≤ k ∧ k < 2 ^ 64 ∧ p.orbit x k = y := by
  obtain ⟨k, hpos, hk, hy⟩ := p.exists_orbit_eq x y
  refine ⟨k, hpos, lt_of_le_of_ne hk fun period => h ?_, hy⟩
  rw [← hy, p.orbit_eq_self_iff, period]

theorem Params.transition_ne_self (p : Params) (x : Word64) : p.transition x ≠ x := by
  have draw : p.orbit x 1 = p.transition x := p.orbit_succ x 0
  rw [← draw]
  exact p.orbit_ne_self x le_rfl (by decide)

namespace Machine

/-- The state word 1 is accepted for every `n` up to 2^64: it leaves `n`, which is above `2^64 mod n`, or 0 where `n` is 2^64
and the threshold is 0. -/
theorem accepted_one {n : Nat} (hpos : 1 ≤ n) (hn : n ≤ 2 ^ 64) : accepted n 1 = true := by
  rw [accepted_iff, show (1 : Word64).toNat = 1 from rfl, one_mul]
  obtain hlt | rfl := Nat.lt_or_eq_of_le hn
  · rw [Nat.mod_eq_of_lt hlt]
    exact (Nat.mod_lt _ hpos).le
  · exact le_rfl

/-- For every `n` up to 2^64 at least two state words are accepted, so one of them is not `x`. -/
theorem exists_accepted_ne {n : Nat} (hpos : 1 ≤ n) (hn : n ≤ 2 ^ 64) (x : Word64) :
    ∃ y, y ≠ x ∧ accepted n y = true := by
  by_cases hx : x = 1
  · exact ⟨BitVec.allOnes 64, by rw [hx]; decide, accepted_allOnes hpos hn⟩
  · exact ⟨1, Ne.symm hx, accepted_one hpos hn⟩

/-- The rejection loop ends on another state word: an accepted word other than `x` is drawn before `x` comes up again. -/
theorem acceptedDraw_ne_self {p : Params} {n : Nat} (hpos : 1 ≤ n) (hn : n ≤ 2 ^ 64) {x y : Word64}
    (h : acceptedDraw p n wholePeriod x = some y) : y ≠ x := by
  obtain ⟨z, hzx, hz⟩ := exists_accepted_ne hpos hn x
  obtain ⟨j, hj, hj', rfl⟩ := p.exists_orbit_eq_of_ne hzx
  obtain ⟨k, hk, -, rejected, -, found⟩ | ⟨-, endless⟩ := acceptedDraw_cases p n wholePeriod x
  · have first : k ≤ j := by
      by_contra hlt
      have := rejected j hj (by omega)
      simp [hz] at this
    obtain rfl : p.orbit x k = y := by simpa [h] using found.symm
    exact p.orbit_ne_self x hk (by omega)
  · simp [h] at endless

theorem rangeMap_ne_self {p : Params} {lo span x y v : Word64} (h : rangeMap p lo span x = some (y, v)) : y ≠ x := by
  cases hd : acceptedDraw p (span.toNat + 1) wholePeriod x with
  | none => simp [rangeMap, hd] at h
  | some z =>
    obtain ⟨rfl, -⟩ : z = y ∧ _ := by simpa [rangeMap, hd] using h
    exact acceptedDraw_ne_self (by omega) (by omega) hd

section
variable {i : Instr} {s t : State}

/-- Every command but SEED is one of the shared operations: an exception, one draw, or the range mapping. -/
theorem exec_operation (hi : ∀ w, i ≠ .seed w) :
    (∃ e, e ≠ .ok ∧ exec i s = raise e s) ∨
      (s.seeded = true ∧ ((∃ f, exec i s = respondDraw f s) ∨ ∃ lo span, exec i s = respondRange lo span s)) := by
  cases hs : s.seeded with
  | false => exact .inl ⟨.notSeeded, by decide, exec_unseeded hs hi⟩
  | true =>
    cases i with
    | seed v => exact absurd rfl (hi v)
    | next | float64 | float32 | bool =>
      simp only [exec_next, exec_float64, exec_float32, exec_bool, whenSeeded_seeded hs]
      exact .inr ⟨trivial, .inl ⟨_, rfl⟩⟩
    | rangeu | ranges | pick =>
      simp only [exec_rangeu, exec_ranges, exec_pick, whenSeeded_seeded hs]
      split
      · exact .inl ⟨_, by decide, rfl⟩
      · exact .inr ⟨trivial, .inr ⟨_, _, rfl⟩⟩
    | unsigned | signed =>
      simp only [exec_unsigned, exec_signed, whenSeeded_seeded hs]
      split
      · exact .inr ⟨trivial, .inl ⟨_, rfl⟩⟩
      · exact .inl ⟨_, by decide, rfl⟩

theorem respondDraw_state_ne {f : Word64 → Word64} (h : respondDraw f s = .next t) : t.state ≠ s.state := by
  cases hx : s.state with
  | none => rw [respondDraw_unwritten hx] at h; cases h
  | some x =>
    rw [respondDraw_written hx] at h
    cases h
    simpa using s.params.transition_ne_self x

theorem respondRange_state_ne {lo span : Word64} (h : respondRange lo span s = .next t) : t.state ≠ s.state := by
  obtain ⟨-, h'⟩ | ⟨x, -, -, h'⟩ | ⟨x, y, v, hx, mapped, h'⟩ := respondRange_cases lo span s <;> rw [h'] at h <;> cases h
  simpa [hx] using rangeMap_ne_self mapped

/-- A command other than SEED that is answered OK leaves another `STATE` (R41). -/
theorem exec_ok_state_ne {v : Word64} (hi : ∀ w, i ≠ .seed w) (h : exec i s = .next t) (ok : s.Answers t ⟨.ok, v⟩) :
    t.state ≠ s.state := by
  obtain ⟨e, he, h'⟩ | ⟨-, ⟨f, h'⟩ | ⟨lo, span, h'⟩⟩ := exec_operation (s := s) hi <;> rw [h'] at h
  · cases h
    simp [State.Answers, he] at ok
  · exact respondDraw_state_ne h
  · exact respondRange_state_ne h

end

/-- The encoding of a command, first in the channel, is performed as that command. -/
theorem step_encode (s : State) (i : Instr) : step { s with requests := encode i :: s.requests } = exec i s := by
  rw [step_of_request rfl, perform_of_legal (decode_encode i)]

end Machine

namespace Proofs
open Machine

/-- Settles O43: one draw is never the word before it, and an accepted draw comes up before the period ends; SEED overwrites
both registers. -/
theorem drawingCommandsAdvanceTheState : Obligations.DrawingCommandsAdvanceTheState := by
  refine ⟨fun _ _ _ _ h ok hi => exec_ok_state_ne hi h ok, fun s t u v first second => ?_⟩
  rw [exec_seed] at first second
  cases first
  cases second
  exact ⟨rfl, rfl⟩

/-- Settles O15: a step is `perform` of the next request, and the encoding of a command decodes to it. -/
theorem stepPerformsTheDecodedCommand : Obligations.StepPerformsTheDecodedCommand := by
  refine ⟨fun s r rest i hq hd => ?_, fun s r rest why hq hd => ?_, fun _ => step_idle, step_encode⟩
  · rw [step_of_request hq, perform_of_legal hd]
  · rw [step_of_request hq, perform_of_illegal hd, raise_eq]
    rfl

end Proofs
end Sys2Proof
end

