-- ==== Sys2Proof/Proofs/Encoding.lean ====
section
/-!
SUPPORT. The family 30_encoding: the requests of each command (spec/30_encoding.md R54), from which the decoder, the encoder and
the opcode table agree; which words are illegal (R56), and that no command is refused as one; and the assembler (R58).
-/
namespace Sys2Proof

/-! ### The requests of a command -/

/-- The requests of each command (R54, R25): its command word, the operands it reads, and anything in the others. -/
inductive RequestOf : Instr → Request → Prop
  | seed (opa opb : Word64) : RequestOf (.seed opa) ⟨0x0001, opa, opb⟩
  | next (opa opb : Word64) : RequestOf .next ⟨0x0002, opa, opb⟩
  | rangeu (opa opb : Word64) : RequestOf (.rangeu opa opb) ⟨0x0003, opa, opb⟩
  | ranges (opa opb : Word64) : RequestOf (.ranges opa opb) ⟨0x0004, opa, opb⟩
  | float64 (opa opb : Word64) : RequestOf .float64 ⟨0x0005, opa, opb⟩
  | float32 (opa opb : Word64) : RequestOf .float32 ⟨0x0006, opa, opb⟩
  | bool (opa opb : Word64) : RequestOf .bool ⟨0x0007, opa, opb⟩
  | unsigned (n : SizeField) (opa opb : Word64) : RequestOf (.unsigned n) ⟨n ++ 0x08#8, opa, opb⟩
  | signed (n : SizeField) (opa opb : Word64) : RequestOf (.signed n) ⟨n ++ 0x09#8, opa, opb⟩
  | pick (opa opb : Word64) : RequestOf (.pick opa) ⟨0x000A, opa, opb⟩

/-- A word is its SIZE followed by its low byte. -/
theorem eq_sizedWord {cmd : CmdWord} {low : BitVec 8} (h : cmd.toNat % 256 = low.toNat) :
    cmd = sizeField cmd ++ low := by
  refine BitVec.eq_of_toNat_eq ?_
  rw [sizedWord_toNat, sizeField_toNat]
  omega

section
variable {cmd : CmdWord} {op : Nat} (stray : ¬ StrayBits cmd) (named : (opField cmd).toNat = op)
include stray named

/-- Without stray bits the low byte is the opcode. -/
theorem lowByte_of_not_strayBits : cmd.toNat % 256 = op := by
  rw [opField_toNat] at named
  unfold StrayBits at stray
  omega

/-- Without stray bits the word of an opcode that has no width is the opcode alone. -/
theorem cmd_of_not_strayBits (unsized : op ≠ 8 ∧ op ≠ 9) : cmd = BitVec.ofNat 16 op := by
  rw [opField_toNat] at named
  unfold StrayBits at stray
  refine BitVec.eq_of_toNat_eq ?_
  rw [BitVec.toNat_ofNat]
  omega

end

theorem requestOf_unsigned {cmd : CmdWord} (h : cmd.toNat % 256 = 8) (opa opb : Word64) :
    RequestOf (.unsigned (sizeField cmd)) ⟨cmd, opa, opb⟩ := by
  obtain ⟨n, rfl⟩ : ∃ n : SizeField, cmd = n ++ 0x08#8 := ⟨_, eq_sizedWord h⟩
  rw [sizeField_sizedWord]
  exact .unsigned n opa opb

theorem requestOf_signed {cmd : CmdWord} (h : cmd.toNat % 256 = 9) (opa opb : Word64) :
    RequestOf (.signed (sizeField cmd)) ⟨cmd, opa, opb⟩ := by
  obtain ⟨n, rfl⟩ : ∃ n : SizeField, cmd = n ++ 0x09#8 := ⟨_, eq_sizedWord h⟩
  rw [sizeField_sizedWord]
  exact .signed n opa opb

theorem decode_of_requestOf {i : Instr} {r : Request} (h : RequestOf i r) : decode r = .legal i := by
  cases h with
  | seed | next | rangeu | ranges | float64 | float32 | bool | pick => exact decode_of_opcode (by decide) rfl
  | unsigned => exact decode_of_sizedWord (.inl rfl) rfl
  | signed => exact decode_of_sizedWord (.inr rfl) rfl

/-- The decode procedure inverted: by the opcode, and then the whole word, since no stray bit is set. -/
theorem requestOf_of_decode {r : Request} {i : Instr} (h : decode r = .legal i) : RequestOf i r := by
  obtain ⟨stray, command⟩ := (decode_eq_legal_iff r i).mp h
  obtain ⟨cmd, opa, opb⟩ := r
  unfold commandOf at command
  split at command <;> cases command
  case h_1 op | h_2 op | h_3 op | h_4 op | h_5 op | h_6 op | h_7 op | h_10 op =>
    cases cmd_of_not_strayBits stray op (by decide)
    constructor
  case h_8 op => exact requestOf_unsigned (lowByte_of_not_strayBits stray op) opa opb
  case h_9 op => exact requestOf_signed (lowByte_of_not_strayBits stray op) opa opb

/-! ### The opcode table -/

/-- The encoder writes a command's word (R54). -/
theorem cmd_encode_of_decode {r : Request} {i : Instr} (h : decode r = .legal i) : (encode i).cmd = r.cmd := by
  cases requestOf_of_decode h <;> rfl

theorem rowOf_holds_encode (i : Instr) : (rowOf i).holds (encode i).cmd = true := by
  cases i with
  | seed v => exact Laws.TableRow.seed v
  | next => exact Laws.TableRow.next
  | rangeu lo hi => exact Laws.TableRow.rangeu lo hi
  | ranges lo hi => exact Laws.TableRow.ranges lo hi
  | float64 => exact Laws.TableRow.float64
  | float32 => exact Laws.TableRow.float32
  | bool => exact Laws.TableRow.bool
  | unsigned n => exact Laws.TableRow.unsigned n
  | signed n => exact Laws.TableRow.signed n
  | pick n => exact Laws.TableRow.pick n

theorem mem_opcodeTable_iff (row : OpcodeRow) : row ∈ opcodeTable ↔ ∃ i, rowOf i = row := by
  refine ⟨fun h => ?_, ?_⟩
  · simp only [opcodeTable, List.mem_cons, List.not_mem_nil, or_false] at h
    obtain h | h | h | h | h | h | h | h | h | h := h <;> exact ⟨_, h.symm⟩
  · rintro ⟨i, rfl⟩
    cases i <;> simp [opcodeTable, rowOf]

/-- A row of one word holds that word alone. -/
theorem holds_word_iff (pattern cmd : CmdWord) : OpcodeRow.holds ⟨0xFFFF, pattern⟩ cmd = true ↔ cmd = pattern := by
  simp only [OpcodeRow.holds, wholeWord_and, beq_iff_eq]

/-- A row whose SIZE is free holds the words with its low byte. -/
theorem holds_lowByte_iff (pattern cmd : CmdWord) :
    OpcodeRow.holds ⟨0x00FF, pattern⟩ cmd = true ↔ cmd.toNat % 256 = pattern.toNat := by
  rw [OpcodeRow.holds, beq_iff_eq, ← BitVec.toNat_inj, lowByte_toNat]

/-- A row of the table holds exactly the words that decode to a command of that row. -/
theorem rowOf_holds_iff (j : Instr) (r : Request) :
    (rowOf j).holds r.cmd = true ↔ ∃ i, decode r = .legal i ∧ rowOf i = rowOf j := by
  refine ⟨fun h => ?_, fun ⟨i, hd, row⟩ => ?_⟩
  · obtain ⟨cmd, opa, opb⟩ := r
    cases j with
    | seed | next | rangeu | ranges | float64 | float32 | bool | pick =>
      cases (holds_word_iff _ _).mp h
      exact ⟨_, decode_of_opcode (by decide) rfl, rfl⟩
    | unsigned => exact ⟨_, decode_of_requestOf (requestOf_unsigned ((holds_lowByte_iff _ _).mp h) opa opb), rfl⟩
    | signed => exact ⟨_, decode_of_requestOf (requestOf_signed ((holds_lowByte_iff _ _).mp h) opa opb), rfl⟩
  · rw [← row, ← cmd_encode_of_decode hd]
    exact rowOf_holds_encode i

theorem opcodeTable_nodup : opcodeTable.Nodup := by decide

/-! ### The illegal words -/

/-- The opcodes that name no command (R54): 0x0 and 0xB to 0xF. -/
def ReservedOpcode (cmd : CmdWord) : Prop := cmd.toNat % 16 = 0 ∨ 0xA < cmd.toNat % 16

theorem commandOf_none_of_reserved {r : Request} (h : ReservedOpcode r.cmd) :
    commandOf (opField r.cmd) (sizeField r.cmd) r.opa r.opb = none := by
  rw [commandOf_none_iff, opField_toNat]
  exact h

theorem decode_of_reservedOpcode {r : Request} (h : ReservedOpcode r.cmd) : decode r = .illegal .reservedOpcode := by
  rw [decode_eq, commandOf_none_of_reserved h]

/-- The words that are Illegal (R56) are those with a reserved opcode or a stray bit. -/
theorem decode_illegal_iff (r : Request) :
    (∃ why, decode r = .illegal why) ↔ ReservedOpcode r.cmd ∨ StrayBits r.cmd := by
  refine ⟨fun ⟨why, h⟩ => ?_, fun h => ?_⟩
  · by_contra legal
    obtain ⟨named, stray⟩ := not_or.mp legal
    have command := mt (commandOf_none_iff (opField r.cmd) (sizeField r.cmd) r.opa r.opb).mp (by rwa [opField_toNat])
    obtain ⟨i, hi⟩ := Option.ne_none_iff_exists'.mp command
    rw [(decode_eq_legal_iff r i).mpr ⟨stray, hi⟩] at h
    cases h
  · obtain reserved | stray := h
    · exact ⟨_, decode_of_reservedOpcode reserved⟩
    · exact ⟨_, decode_of_strayBits stray⟩

theorem sizeField_eq_ofNat (cmd : CmdWord) : sizeField cmd = BitVec.ofNat 8 (cmd.toNat / 256) := by
  rw [← sizeField_toNat, BitVec.ofNat_toNat, BitVec.setWidth_eq]

namespace Machine

/-! ### What the checks of a command refuse -/

/-- The status with which a command's own checks refuse it, and the condition (R110, R113, R114, R115). -/
inductive Refuses (s : State) : Instr → Status → Prop
  | notSeeded {i : Instr} (seeded : s.seeded = false) (hi : ∀ v, i ≠ .seed v) : Refuses s i .notSeeded
  | rangeu {lo hi : Word64} (seeded : s.seeded = true) (h : rangeuInvalid lo hi = true) :
      Refuses s (.rangeu lo hi) .invalidRange
  | ranges {lo hi : Word64} (seeded : s.seeded = true) (h : rangesInvalid lo hi = true) :
      Refuses s (.ranges lo hi) .invalidRange
  | unsigned {n : SizeField} (seeded : s.seeded = true) (h : widthValid n ≠ true) :
      Refuses s (.unsigned n) .invalidBitWidth
  | signed {n : SizeField} (seeded : s.seeded = true) (h : widthValid n ≠ true) :
      Refuses s (.signed n) .invalidBitWidth
  | pick {n : Word64} (seeded : s.seeded = true) (h : n = 0) : Refuses s (.pick n) .absent

section
variable {i : Instr} {s t : State}

theorem answers_unique {a b : Response} (ha : s.Answers t a) (hb : s.Answers t b) : a = b := by
  simpa [hb] using ha.symm

theorem respondDraw_ok {f : Word64 → Word64} (h : respondDraw f s = .next t) : ∃ v, s.Answers t ⟨.ok, v⟩ := by
  cases hx : s.state with
  | none => rw [respondDraw_unwritten hx] at h; cases h
  | some x => rw [respondDraw_written hx] at h; cases h; exact ⟨_, rfl⟩

theorem respondRange_ok {lo span : Word64} (h : respondRange lo span s = .next t) : ∃ v, s.Answers t ⟨.ok, v⟩ := by
  obtain ⟨-, h'⟩ | ⟨x, -, -, h'⟩ | ⟨x, y, v, -, -, h'⟩ := respondRange_cases lo span s <;> rw [h'] at h <;> cases h
  exact ⟨v, rfl⟩

/-- A command is refused by one of its checks, or it is answered OK where it ends. -/
theorem exec_refuses_or_ok (i : Instr) (s : State) :
    (∃ e, Refuses s i e ∧ exec i s = raise e s) ∨ ∀ t, exec i s = .next t → ∃ v, s.Answers t ⟨.ok, v⟩ := by
  obtain ⟨v, rfl⟩ | hi := em (∃ v, i = .seed v)
  · rw [exec_seed]
    exact .inr fun t h => by cases h; exact ⟨0, rfl⟩
  replace hi := not_exists.mp hi
  cases hs : s.seeded with
  | false => exact .inl ⟨_, .notSeeded hs hi, exec_unseeded hs hi⟩
  | true =>
    cases i with
    | seed v => exact absurd rfl (hi v)
    | next | float64 | float32 | bool =>
      simp only [exec_next, exec_float64, exec_float32, exec_bool, whenSeeded_seeded hs]
      exact .inr fun _ => respondDraw_ok
    | rangeu | ranges | pick =>
      simp only [exec_rangeu, exec_ranges, exec_pick, whenSeeded_seeded hs]
      split
      · exact .inl ⟨_, by constructor <;> assumption, rfl⟩
      · exact .inr fun _ => respondRange_ok
    | unsigned | signed =>
      simp only [exec_unsigned, exec_signed, whenSeeded_seeded hs]
      split
      · exact .inr fun _ => respondDraw_ok
      · exact .inl ⟨_, by constructor <;> assumption, rfl⟩

/-- ILLEGAL_COMMAND is the status of no command's check (R111). -/
theorem exec_status_ne_illegalCommand {a : Response} (h : exec i s = .next t) (answer : s.Answers t a) :
    a.status ≠ .illegalCommand := by
  obtain ⟨e, refused, h'⟩ | completes := exec_refuses_or_ok i s
  · rw [h', raise_eq] at h
    cases h
    obtain rfl := answers_unique answer rfl
    cases refused <;> decide
  · obtain ⟨v, ok⟩ := completes t h
    obtain rfl := answers_unique answer ok
    simp

end

theorem step_of_illegal {s : State} {r : Request} {rest : List Request} {why : IllegalReason}
    (hq : s.requests = r :: rest) (hd : decode r = .illegal why) :
    step s = .next (respond .illegalCommand 0 { s with requests := rest }) := by
  rw [step_of_request hq, perform_of_illegal hd, raise_eq]

/-- A step that answers ILLEGAL_COMMAND took an illegal word. -/
theorem decode_illegal_of_step {s t : State} {r : Request} {rest : List Request} {v : Word64}
    (hq : s.requests = r :: rest) (h : step s = .next t) (answer : s.Answers t ⟨.illegalCommand, v⟩) :
    ∃ why, decode r = .illegal why := by
  rw [step_of_request hq] at h
  cases hd : decode r with
  | illegal why => exact ⟨why, rfl⟩
  | legal i =>
    rw [perform_of_legal hd] at h
    exact absurd rfl (exec_status_ne_illegalCommand (s := { s with requests := rest }) h answer)

/-! ### The widths -/

theorem widthValid_iff_toNat (n : SizeField) :
    widthValid n = true ↔ n.toNat = 8 ∨ n.toNat = 16 ∨ n.toNat = 32 ∨ n.toNat = 64 := by
  simp [widthValid_iff, ← BitVec.toNat_inj]

section
variable {s : State} {n : SizeField} {f : Word64 → Word64}

/-- A command of one draw behind the check of its width (R89, R90). -/
def widthChecked (n : SizeField) (f : Word64 → Word64) (s : State) : Answer :=
  if widthValid n then respondDraw f s else raise .invalidBitWidth s

theorem widthChecked_valid {x : Word64} (hx : s.state = some x)
    (h : n.toNat = 8 ∨ n.toNat = 16 ∨ n.toNat = 32 ∨ n.toNat = 64) :
    ∃ t v, widthChecked n f s = .next t ∧ s.Answers t ⟨.ok, v⟩ := by
  rw [widthChecked, if_pos ((widthValid_iff_toNat n).mpr h), respondDraw_written hx]
  exact ⟨_, _, rfl, rfl⟩

theorem widthChecked_invalid (h : ¬(n.toNat = 8 ∨ n.toNat = 16 ∨ n.toNat = 32 ∨ n.toNat = 64)) :
    widthChecked n f s = .next (respond .invalidBitWidth 0 s) := by
  rw [widthChecked, if_neg (mt (widthValid_iff_toNat n).mp h), raise_eq]

theorem exec_unsigned_seeded (n : SizeField) (hs : s.seeded = true) :
    exec (.unsigned n) s = widthChecked n (fun x => zext64 (topBits n.toNat x)) s := by
  rw [exec_unsigned, whenSeeded_seeded hs, widthChecked]

theorem exec_signed_seeded (n : SizeField) (hs : s.seeded = true) :
    exec (.signed n) s = widthChecked n (fun x => sext64 (topBits n.toNat x)) s := by
  rw [exec_signed, whenSeeded_seeded hs, widthChecked]

end

end Machine

/-! ### The assembler -/

/-- The command of an assembler line, its operands as words (R58). -/
def Source.command : Source → Instr
  | .seed v => .seed (BitVec.ofNat 64 v)
  | .next => .next
  | .rangeu lo hi => .rangeu (BitVec.ofNat 64 lo) (BitVec.ofNat 64 hi)
  | .ranges lo hi => .ranges (BitVec.ofInt 64 lo) (BitVec.ofInt 64 hi)
  | .float64 => .float64
  | .float32 => .float32
  | .bool => .bool
  | .unsigned n => .unsigned (BitVec.ofNat 8 n)
  | .signed n => .signed (BitVec.ofNat 8 n)
  | .pick n => .pick (BitVec.ofNat 64 n)

/-- The assembler rejects what is not well formed, and encodes the command of the rest. -/
theorem Source.assemble_eq (c : Source) : c.assemble = if c.wellFormed then some (encode c.command) else none := by
  unfold Source.assemble
  cases c <;> rfl

theorem Source.assemble_of_wellFormed {c : Source} (h : c.wellFormed = true) : c.assemble = some (encode c.command) := by
  rw [c.assemble_eq, if_pos h]

theorem Source.assemble_of_illFormed {c : Source} (h : ¬ c.wellFormed = true) : c.assemble = none := by
  rw [c.assemble_eq, if_neg h]

theorem Source.assemble_isSome (c : Source) : c.assemble.isSome = c.wellFormed := by
  rw [c.assemble_eq]
  cases c.wellFormed <;> rfl

theorem fitsUnsigned64_iff (v : Nat) : fitsUnsigned64 v = true ↔ v < 2 ^ 64 := decide_eq_true_iff

theorem fitsSize_iff (v : Nat) : fitsSize v = true ↔ v < 256 := decide_eq_true_iff

theorem fitsSigned64_iff (v : Int) : fitsSigned64 v = true ↔ -2 ^ 63 ≤ v ∧ v < 2 ^ 63 := by
  simp [fitsSigned64]

theorem Source.wellFormed_rangeu_iff (lo hi : Nat) :
    (Source.rangeu lo hi).wellFormed = true ↔ lo < 2 ^ 64 ∧ hi < 2 ^ 64 := by
  simp only [Source.wellFormed, Bool.and_eq_true, fitsUnsigned64_iff]

theorem Source.wellFormed_ranges_iff (lo hi : Int) :
    (Source.ranges lo hi).wellFormed = true ↔ (-2 ^ 63 ≤ lo ∧ lo < 2 ^ 63) ∧ -2 ^ 63 ≤ hi ∧ hi < 2 ^ 63 := by
  simp only [Source.wellFormed, Bool.and_eq_true, fitsSigned64_iff]

theorem toNat_ofNat_of_fits {w v : Nat} (h : v < 2 ^ w) : (BitVec.ofNat w v).toNat = v := by
  rw [BitVec.toNat_ofNat, Nat.mod_eq_of_lt h]

namespace Proofs
open Machine

/-- Settles O7: `decode_encode` in one direction, and `requestOf_of_decode` in the other. -/
theorem decodeAndEncodeAgree : Obligations.DecodeAndEncodeAgree := by
  refine ⟨decode_encode, fun r i h => ?_⟩
  cases requestOf_of_decode h <;> exact ⟨rfl, rfl, rfl⟩

/-- Settles O9: the rows are pairwise different, and a word that two rows held would be read as a command of each. -/
theorem opcodeTableAgreesWithDecode : Obligations.OpcodeTableAgreesWithDecode := by
  refine ⟨fun r => ⟨?_, ?_⟩, fun r i h => (rowOf_holds_iff i r).mpr ⟨i, h, rfl⟩, ?_⟩
  · rintro ⟨i, h⟩
    exact ⟨rowOf i, (mem_opcodeTable_iff _).mpr ⟨i, rfl⟩, (rowOf_holds_iff i r).mpr ⟨i, h, rfl⟩⟩
  · rintro ⟨row, listed, h⟩
    obtain ⟨j, rfl⟩ := (mem_opcodeTable_iff row).mp listed
    obtain ⟨i, hd, -⟩ := (rowOf_holds_iff j r).mp h
    exact ⟨i, hd⟩
  · refine List.Pairwise.imp_of_mem (fun ha hb hne cmd both => hne ?_) opcodeTable_nodup
    obtain ⟨j, rfl⟩ := (mem_opcodeTable_iff _).mp ha
    obtain ⟨k, rfl⟩ := (mem_opcodeTable_iff _).mp hb
    obtain ⟨i, hi, rowi⟩ := (rowOf_holds_iff j ⟨cmd, 0, 0⟩).mp both.1
    obtain ⟨i', hi', rowi'⟩ := (rowOf_holds_iff k ⟨cmd, 0, 0⟩).mp both.2
    cases hi.symm.trans hi'
    exact rowi.symm.trans rowi'

/-- Settles O8: the checks of the decode procedure in their order, and each command word with the command it names. -/
theorem decodeProcedureIsTotal : Obligations.DecodeProcedureIsTotal := by
  rintro ⟨cmd, opa, opb⟩
  refine ⟨decode_of_reservedOpcode, fun h1 hA rsv => ?reservedBits, fun h1 hA rsv size h8 h9 => ?misplacedSize,
    ?_, ?_, ?_, ?_, ?_, ?_, ?_, fun h => ?unsigned, fun h => ?signed, ?_, fun why s hd => perform_of_illegal hd s⟩
  case reservedBits => rw [decode_of_strayBits (.inl rsv), if_neg (by omega), if_pos rsv]
  case misplacedSize =>
    rw [decode_of_strayBits (.inr ⟨size, h8, h9⟩), if_neg (by omega), if_neg (not_not.mpr rsv)]
  case unsigned => rw [← sizeField_eq_ofNat]; exact decode_of_requestOf (requestOf_unsigned h opa opb)
  case signed => rw [← sizeField_eq_ofNat]; exact decode_of_requestOf (requestOf_signed h opa opb)
  all_goals rintro rfl; exact decode_of_opcode (by decide) rfl

/-- Settles O10: the illegal words are refused before any other check, and no other check answers ILLEGAL_COMMAND. -/
theorem illegalWordsAreRefused : Obligations.IllegalWordsAreRefused := by
  intro s r rest hq
  have words := decode_illegal_iff r
  rw [ReservedOpcode, StrayBits, or_assoc] at words
  refine ⟨fun h => ?_, fun t h answer => words.mp (decode_illegal_of_step hq h answer)⟩
  obtain ⟨why, hd⟩ := words.mpr h
  exact step_of_illegal hq hd

/-- Settles O11: a sized word is legal whatever its SIZE, and the check of the width comes before the draw. -/
theorem everySizeDecodes : Obligations.EverySizeDecodes := by
  refine fun n opa opb => ⟨decode_of_requestOf (.unsigned n opa opb), decode_of_requestOf (.signed n opa opb),
    fun s x hs hx => ?_⟩
  rw [exec_unsigned_seeded n hs, exec_signed_seeded n hs]
  refine ⟨fun valid => ⟨widthChecked_valid hx valid, widthChecked_valid hx valid⟩, fun h8 h16 h32 h64 => ?_⟩
  have invalid : ¬(n.toNat = 8 ∨ n.toNat = 16 ∨ n.toNat = 32 ∨ n.toNat = 64) := by tauto
  exact ⟨widthChecked_invalid invalid, widthChecked_invalid invalid⟩

/-- Settles O14: an operand in range is the value of its word, and the request of a well-formed line decodes by
`decode_encode`. -/
theorem assemblerEncodesItsOperands : Obligations.AssemblerEncodesItsOperands := by
  refine ⟨fun v h => ?_, ⟨rfl, decode_encode .next⟩, fun lo hi hlo hhi => ?_, fun lo hi hlo hlo' hhi hhi' => ?_,
    ⟨rfl, decode_encode .float64⟩, ⟨rfl, decode_encode .float32⟩, ⟨rfl, decode_encode .bool⟩, fun n h => ?_,
    fun n h => ?_, fun v h => ?_, fun lo hi h => ?_, fun lo hi h => ?_, fun n h => ?_, Source.assemble_isSome⟩
  · exact ⟨_, Source.assemble_of_wellFormed ((fitsUnsigned64_iff v).mpr h), decode_encode (.seed _), toNat_ofNat_of_fits h⟩
  · have fits := (Source.wellFormed_rangeu_iff lo hi).mpr ⟨hlo, hhi⟩
    exact ⟨_, _, Source.assemble_of_wellFormed fits, decode_encode (.rangeu _ _), toNat_ofNat_of_fits hlo,
      toNat_ofNat_of_fits hhi⟩
  · have fits := (Source.wellFormed_ranges_iff lo hi).mpr ⟨⟨hlo, hlo'⟩, hhi, hhi'⟩
    exact ⟨_, _, Source.assemble_of_wellFormed fits, decode_encode (.ranges _ _),
      BitVec.toInt_ofInt_eq_self (by decide) hlo hlo', BitVec.toInt_ofInt_eq_self (by decide) hhi hhi'⟩
  · have fits := (fitsSize_iff n).mpr h
    exact ⟨_, toNat_ofNat_of_fits h, Source.assemble_of_wellFormed fits, decode_encode (.unsigned _),
      Source.assemble_of_wellFormed fits, decode_encode (.signed _)⟩
  · exact ⟨_, Source.assemble_of_wellFormed ((fitsUnsigned64_iff n).mpr h), decode_encode (.pick _), toNat_ofNat_of_fits h⟩
  · have rejected := mt (fitsUnsigned64_iff v).mp (by omega)
    exact ⟨Source.assemble_of_illFormed rejected, Source.assemble_of_illFormed rejected⟩
  · exact Source.assemble_of_illFormed (mt (Source.wellFormed_rangeu_iff lo hi).mp (by omega))
  · exact Source.assemble_of_illFormed (mt (Source.wellFormed_ranges_iff lo hi).mp (by omega))
  · have rejected := mt (fitsSize_iff n).mp (by omega)
    exact ⟨Source.assemble_of_illFormed rejected, Source.assemble_of_illFormed rejected⟩

/-- Settles O13: the first four are requests of their commands, and the others have a reserved opcode or a stray bit. -/
theorem writtenWordsDecode : Obligations.WrittenWordsDecode :=
  ⟨decode_of_requestOf (.seed 0x2A 0), decode_of_requestOf (.rangeu 1 6), decode_of_requestOf (.unsigned 32 0 0),
    decode_of_requestOf (.pick 3 0), decode_of_reservedOpcode (.inl rfl), decode_of_strayBits (.inl (by decide)),
    decode_of_strayBits (.inr (by decide))⟩

end Proofs
end Sys2Proof
end

