-- ==== Sys2Proof/Proofs/Core.lean ====
section
/-!
SUPPORT. The family 40_core. The draws by their number: which are equal (spec/40_core.md R74), and what each bit of the state
word does (R77). Then two blocks side by side: where their registers agree a command answers them alike (R76), and so does a
queue of commands after the same SEED.
-/
namespace Sys2Proof

/-! ### The draws by their number -/

/-- The machine's draws, made one after another, are the orbit. -/
theorem Params.transition_iterate (p : Params) (x : Word64) (k : Nat) : p.transition^[k] x = p.orbit x k := by
  induction k with
  | zero => rfl
  | succ k ih => rw [Function.iterate_succ_apply', ih, p.orbit_succ]

/-- Two draws are equal exactly when whole periods lie between them. -/
theorem Params.orbit_eq_orbit_iff (p : Params) (x : Word64) (i j : Nat) :
    p.orbit x i = p.orbit x j ↔ i ≡ j [MOD 2 ^ 64] := by
  wlog hij : i ≤ j generalizing i j with ordered
  · rw [eq_comm, ordered j i (by omega)]
    exact Nat.ModEq.comm
  obtain ⟨d, rfl⟩ := Nat.exists_eq_add_of_le hij
  rw [eq_comm, p.orbit_add, p.orbit_eq_self_iff, Nat.modEq_iff_dvd' hij, Nat.add_sub_cancel_left]

theorem Params.orbit_period_add (p : Params) (x : Word64) (k : Nat) : p.orbit x (2 ^ 64 + k) = p.orbit x k :=
  (p.orbit_eq_orbit_iff x _ _).mpr Nat.add_modEq_left

/-- Every word is among 2^64 consecutive states, the start counted as the first of them. -/
theorem Params.exists_orbit_eq_lt (p : Params) (x y : Word64) : ∃ k, k < 2 ^ 64 ∧ p.orbit x k = y := by
  by_cases hy : y = x
  · exact ⟨0, by decide, hy.symm⟩
  · obtain ⟨k, -, hk, found⟩ := p.exists_orbit_eq_of_ne hy
    exact ⟨k, hk, found⟩

/-! ### The bits of the state word -/

/-- Numbers that agree below bit `k` agree up to it exactly when their bits `k` are equal. -/
theorem modEq_two_pow_succ_iff {a b k : Nat} (low : a ≡ b [MOD 2 ^ k]) :
    a ≡ b [MOD 2 ^ (k + 1)] ↔ a.testBit k = b.testBit k := by
  rw [Nat.ModEq, Nat.mod_pow_succ, Nat.mod_pow_succ, low, Nat.add_left_cancel_iff, Nat.mul_right_inj (Nat.two_pow_pos k).ne',
    ← Nat.toNat_testBit, ← Nat.toNat_testBit]
  cases a.testBit k <;> cases b.testBit k <;> decide

/-- `d` draws that bring the bits below bit `k` back bring bit `k` itself back exactly when `2^(k+1)` divides `d`. -/
theorem Params.orbit_getLsbD_eq_iff (p : Params) (x : Word64) (i : Nat) {k d : Nat} (hk : k < 64) (hd : 2 ^ k ∣ d) :
    (p.orbit x (i + d)).getLsbD k = (p.orbit x i).getLsbD k ↔ 2 ^ (k + 1) ∣ d := by
  have low := (p.orbit_modEq_iff (p.orbit x i) d hk.le).mpr hd
  rw [p.orbit_add, ← BitVec.testBit_toNat, ← BitVec.testBit_toNat, ← modEq_two_pow_succ_iff low,
    p.orbit_modEq_iff _ _ hk]

theorem Params.orbit_getLsbD_period (p : Params) (x : Word64) (i : Nat) {k : Nat} (hk : k < 64) :
    (p.orbit x (i + 2 ^ (k + 1))).getLsbD k = (p.orbit x i).getLsbD k :=
  (p.orbit_getLsbD_eq_iff x i hk (pow_dvd_pow 2 k.le_succ)).mpr dvd_rfl

theorem Params.orbit_getLsbD_half_period (p : Params) (x : Word64) (i : Nat) {k : Nat} (hk : k < 64) :
    (p.orbit x (i + 2 ^ k)).getLsbD k = !(p.orbit x i).getLsbD k := by
  rw [Bool.eq_not, Ne, p.orbit_getLsbD_eq_iff x i hk dvd_rfl]
  exact Nat.not_dvd_of_pos_of_lt (Nat.two_pow_pos k) (Nat.pow_lt_pow_succ one_lt_two)

/-! ### Illegal words -/

/-- An opcode that has no width is legal in one word alone. -/
theorem decode_illegal_of_ne_opcode {r : Request} {op : Nat} (named : r.cmd.toNat % 16 = op) (unsized : op ≠ 8 ∧ op ≠ 9)
    (other : r.cmd ≠ BitVec.ofNat 16 op) : ∃ why, decode r = .illegal why := by
  rw [← opField_toNat] at named
  refine (decode_illegal_iff r).mpr (.inr ?_)
  by_contra stray
  exact other (cmd_of_not_strayBits stray named unsized)

namespace Machine

/-! ### NEXT -/

theorem exec_next_written {s : State} {x : Word64} (hs : s.seeded = true) (hx : s.state = some x) :
    exec .next s = .next (respond .ok (x * s.params.multiplier + s.params.increment)
      { s with state := some (x * s.params.multiplier + s.params.increment) }) := by
  rw [exec_next, whenSeeded_seeded hs, respondDraw_written hx, Params.transition_eq]

/-! ### Two blocks side by side -/

/-- The registers and parameters of two blocks agree as far as a command can tell: an unseeded block's `STATE` is not read. -/
structure Agree (s s' : State) : Prop where
  params : s.params = s'.params
  seeded : s.seeded = s'.seeded
  state : s.seeded = true → s.state = s'.state

/-- Where the one block's command completes the other's does too, with the same response, and they agree again. -/
def AnsweredAlike (s s' : State) (answer answer' : Answer) : Prop :=
  ∀ t, answer = .next t →
    ∃ t' a, answer' = .next t' ∧ s.Answers t a ∧ s'.Answers t' a ∧ Agree t t'

section
variable {s s' : State}

theorem ite_alike {c : Prop} [Decidable c] {a a' b b' : Answer} (ha : AnsweredAlike s s' a a')
    (hb : AnsweredAlike s s' b b') : AnsweredAlike s s' (if c then a else b) (if c then a' else b') := by
  split
  · exact ha
  · exact hb

variable (agree : Agree s s')
include agree

theorem raise_alike (e : Status) : AnsweredAlike s s' (raise e s) (raise e s') := by
  rintro t ⟨⟩
  exact ⟨_, _, rfl, rfl, rfl, agree.params, agree.seeded, agree.state⟩

theorem execSeed_alike (v : Word64) : AnsweredAlike s s' (exec (.seed v) s) (exec (.seed v) s') := by
  rintro t ⟨⟩
  exact ⟨_, _, exec_seed v s', rfl, rfl, agree.params, rfl, fun _ => rfl⟩

theorem respondDraw_alike (hs : s.seeded = true) (f : Word64 → Word64) :
    AnsweredAlike s s' (respondDraw f s) (respondDraw f s') := by
  intro t h
  cases hx : s.state with
  | none => rw [respondDraw_unwritten hx] at h; cases h
  | some x =>
    rw [respondDraw_written hx] at h
    cases h
    rw [respondDraw_written ((agree.state hs).symm.trans hx), ← agree.params]
    exact ⟨_, _, rfl, rfl, rfl, rfl, agree.seeded, fun _ => rfl⟩

theorem respondRange_alike (hs : s.seeded = true) (lo span : Word64) :
    AnsweredAlike s s' (respondRange lo span s) (respondRange lo span s') := by
  intro t h
  obtain ⟨-, h'⟩ | ⟨x, -, -, h'⟩ | ⟨x, y, v, hx, mapped, h'⟩ := respondRange_cases lo span s <;> rw [h'] at h <;> cases h
  rw [agree.state hs] at hx
  rw [agree.params] at mapped
  exact ⟨respond .ok v { s' with state := some y }, _, by simp [respondRange, hx, mapped], rfl, rfl,
    agree.params, agree.seeded, fun _ => rfl⟩

theorem whenSeeded_alike {command : State → Answer}
    (h : s.seeded = true → AnsweredAlike s s' (command s) (command s')) :
    AnsweredAlike s s' (whenSeeded command s) (whenSeeded command s') := by
  cases hs : s.seeded with
  | false =>
    rw [whenSeeded_unseeded hs, whenSeeded_unseeded (agree.seeded ▸ hs)]
    exact raise_alike agree _
  | true =>
    rw [whenSeeded_seeded hs, whenSeeded_seeded (agree.seeded ▸ hs)]
    exact h hs

/-- R76: a command reads the parameters, `SEEDED` and, where seeded, `STATE`, and nothing else. -/
theorem exec_alike (i : Instr) : AnsweredAlike s s' (exec i s) (exec i s') := by
  cases i with
  | seed v => exact execSeed_alike agree v
  | next | float64 | float32 | bool =>
    simp only [exec_next, exec_float64, exec_float32, exec_bool]
    exact whenSeeded_alike agree fun hs => respondDraw_alike agree hs _
  | rangeu | ranges | pick =>
    simp only [exec_rangeu, exec_ranges, exec_pick]
    exact whenSeeded_alike agree fun hs => ite_alike (raise_alike agree _) (respondRange_alike agree hs _ _)
  | unsigned | signed =>
    simp only [exec_unsigned, exec_signed]
    exact whenSeeded_alike agree fun hs => ite_alike (respondDraw_alike agree hs _) (raise_alike agree _)

theorem perform_alike (r : Request) : AnsweredAlike s s' (perform r s) (perform r s') := by
  cases hd : decode r with
  | illegal why =>
    rw [perform_of_illegal hd, perform_of_illegal hd]
    exact raise_alike agree _
  | legal i =>
    rw [perform_of_legal hd, perform_of_legal hd]
    exact exec_alike agree i

end

section
variable {s t : State} {r : Request}

theorem perform_ends (r : Request) (hs : s.seeded = s.state.isSome) : Ends (perform r s) := by
  cases hd : decode r with
  | illegal why => exact ⟨_, perform_of_illegal hd s⟩
  | legal i => rw [perform_of_legal hd]; exact exec_ends i hs

/-- The waiting requests are left alone, and a seeded block stays seeded with `STATE` written. -/
theorem perform_keeps (h : perform r s = .next t) :
    t.requests = s.requests ∧ (s.seeded = true → t.seeded = true) ∧
      (s.state.isSome = true → t.state.isSome = true) := by
  cases hd : decode r with
  | illegal why =>
    rw [perform_of_illegal hd] at h
    cases h
    exact ⟨rfl, id, id⟩
  | legal i =>
    rw [perform_of_legal hd] at h
    obtain ⟨v, -, rfl⟩ | ⟨e, -, rfl⟩ | ⟨-, v, y, rfl⟩ := exec_cases h
    · exact ⟨rfl, fun _ => rfl, fun _ => rfl⟩
    · exact ⟨rfl, id, id⟩
    · exact ⟨rfl, id, fun _ => rfl⟩

end

/-- Two blocks that agree on a written generator answer the same queue with the same responses, one a request. -/
theorem run_alike (queue : List Request) (s s' : State) (agree : Agree s s') (seeded : s.seeded = true)
    (written : s.state.isSome = true) (hq : s.requests = queue) (hq' : s'.requests = queue) :
    ∃ t t' answers, core.run queue.length s = .next t ∧ core.run queue.length s' = .next t' ∧
      t.responses = s.responses ++ answers ∧ t'.responses = s'.responses ++ answers ∧
      answers.length = queue.length ∧ t.seeded = true ∧ Agree t t' := by
  induction queue generalizing s s' with
  | nil => exact ⟨s, s', [], rfl, rfl, by simp, by simp, rfl, seeded, agree⟩
  | cons r queue ih =>
    have taken : Agree { s with requests := queue } { s' with requests := queue } :=
      ⟨agree.params, agree.seeded, agree.state⟩
    obtain ⟨t, ht⟩ := perform_ends (s := { s with requests := queue }) r (by simp [seeded, written])
    obtain ⟨t', a, ht', answer, answer', agree'⟩ := perform_alike taken r t ht
    obtain ⟨requests, keepsSeeded, keepsWritten⟩ := perform_keeps ht
    obtain ⟨requests', -, -⟩ := perform_keeps ht'
    obtain ⟨u, u', answers, hu, hu', responses, responses', length, final⟩ :=
      ih t t' agree' (keepsSeeded seeded) (keepsWritten written) requests requests'
    rw [← step_of_request hq] at ht
    rw [← step_of_request hq'] at ht'
    refine ⟨u, u', a :: answers, (run_succ_of_step ht _).trans hu, (run_succ_of_step ht' _).trans hu', ?_, ?_,
      by simp [length], final⟩
    · rw [responses, answer, List.append_assoc, List.singleton_append]
    · rw [responses', answer', List.append_assoc, List.singleton_append]

theorem step_seed {s : State} {v : Word64} {queue : List Request} (hq : s.requests = encode (.seed v) :: queue) :
    step s = .next (respond .ok 0 { s with state := some v, seeded := true, requests := queue }) := by
  rw [step_of_request hq, perform_of_legal (decode_encode _), exec_seed]

end Machine

namespace Proofs
open Machine

/-- Settles O32: two draws are equal exactly when whole periods of 2^64 lie between them, and every word comes up within one;
so an accepted one does, and the loops end. -/
theorem transitionHasFullPeriod : Obligations.TransitionHasFullPeriod := by
  intro p x
  simp only [Params.transition_iterate]
  refine ⟨fun i j hi hj h => ?_, p.orbit_period_add x, fun m y => ?_, fun lo span => rangeMap_isSome p lo span x⟩
  · have same := Nat.ModEq.add_right_cancel' 1 ((p.orbit_eq_orbit_iff x _ _).mp h)
    exact same.eq_of_lt_of_lt hi hj
  · obtain ⟨k, hk, found⟩ := p.exists_orbit_eq_lt (p.orbit x m) y
    rw [← p.orbit_add] at found
    refine ⟨k, ⟨hk, found⟩, fun j ⟨hj, found'⟩ => ?_⟩
    have same := Nat.ModEq.add_left_cancel' m ((p.orbit_eq_orbit_iff x _ _).mp (found'.trans found.symm))
    exact same.eq_of_lt_of_lt hj hk

/-- Settles O33: `2^k` draws bring back the bits below bit `k` but not bit `k`, and `2^(k+1)` draws bring it back. -/
theorem lowBitsHaveShortPeriods : Obligations.LowBitsHaveShortPeriods := by
  intro p x
  simp only [Params.transition_iterate]
  refine ⟨fun k i hk => ⟨p.orbit_getLsbD_period x i hk, p.orbit_getLsbD_half_period x i hk⟩, ?_⟩
  have first := p.orbit_getLsbD_half_period x 0 (k := 0) (by decide)
  rwa [pow_zero, p.orbit_succ] at first

/-- Settles O49: after the SEED both blocks hold the same written generator, and from there they are answered alike. -/
theorem equalSeedsGiveEqualSequences : Obligations.EqualSeedsGiveEqualSequences := by
  intro s s' v queue params hq hq'
  obtain ⟨t, t', answers, ht, ht', responses, responses', length, seeded, agree⟩ :=
    run_alike queue (respond .ok 0 { s with state := some v, seeded := true, requests := queue })
      (respond .ok 0 { s' with state := some v, seeded := true, requests := queue })
      ⟨params, rfl, fun _ => rfl⟩ rfl rfl rfl rfl
  refine ⟨t, t', ⟨.ok, 0⟩ :: answers, (run_succ_of_step (step_seed hq) _).trans ht,
    (run_succ_of_step (step_seed hq') _).trans ht', ?_, ?_, by simp [length], agree.state seeded, seeded,
    agree.seeded ▸ seeded⟩
  · rw [responses, respond_responses, List.append_assoc, List.singleton_append]
  · rw [responses', respond_responses, List.append_assoc, List.singleton_append]

/-- Settles O21: NEXT is the draw itself, answered whole. -/
theorem nextReturnsTheNewState : Obligations.NextReturnsTheNewState := by
  refine ⟨fun opa opb => decode_of_requestOf (.next opa opb),
    fun r named other => decode_illegal_of_ne_opcode named (by decide) other,
    fun s hs => exec_unseeded hs (by simp), fun s x hs hx => exec_next_written hs hx, fun s hs hx => ?_⟩
  rw [exec_next_written hs hx, zero_mul, zero_add]
  rfl

/-- Settles O31: the machine reduces once; reducing a summand first, or reading words as signed, changes nothing modulo 2^64. -/
theorem transitionWrapsExactly : Obligations.TransitionWrapsExactly := by
  intro p x
  have exact : (p.transition x).toNat = (x.toNat * p.multiplier.toNat + p.increment.toNat) % 2 ^ 64 :=
    BitVec.toNat_ofNat _ _
  refine ⟨exact, by rw [exact, Nat.mod_add_mod], ?_⟩
  rw [p.transition_eq, BitVec.ofInt_add, BitVec.ofInt_mul, BitVec.ofInt_toInt, BitVec.ofInt_toInt, BitVec.ofInt_toInt]

/-- Settles O48: blocks with these registers agree, and a command answers blocks that agree alike. -/
theorem answersDependOnTheRegistersAlone : Obligations.AnswersDependOnTheRegistersAlone := by
  intro i s s' t params seeded state h
  obtain ⟨t', a, h', answer, answer', agree⟩ := exec_alike ⟨params, seeded, state⟩ i t h
  exact ⟨t', a, h', answer, answer', agree.seeded, agree.state⟩

/-- Settles O20: SEED makes no check, and its word is 0x0001 alone. -/
theorem seedLoadsTheStateWord : Obligations.SeedLoadsTheStateWord :=
  ⟨fun opa opb => decode_of_requestOf (.seed opa opb),
    fun _ named other => decode_illegal_of_ne_opcode named (by decide) other, fun s v => exec_seed v s⟩

end Proofs
end Sys2Proof
end

