-- ==== Sys2Proof/Proofs/RangeMapping.lean ====
section
/-!
SUPPORT. The range mapping of spec/41_derivation.md R80 and its laws (R83): how many draws are accepted and rejected, and where
the loop ends.
-/
namespace Sys2Proof

theorem card_word64 : Fintype.card Word64 = 2 ^ 64 := by
  rw [Fintype.card_congr BitVec.equivFin.toEquiv, Fintype.card_fin]

namespace Machine

/-! ### The threshold and the offsets -/

theorem accepted_eq_false_iff (n : Nat) (y : Word64) :
    accepted n y = false ↔ y.toNat * n % 2 ^ 64 < 2 ^ 64 % n := by
  rw [← Bool.not_eq_true, accepted_iff, not_le]

theorem threshold_le_sub {n : Nat} (hn : n ≤ 2 ^ 64) : threshold n ≤ 2 ^ 64 - n := by
  rw [threshold, Nat.mod_eq_sub_mod hn]
  exact Nat.mod_le _ _

theorem threshold_lt {n : Nat} (hpos : 1 ≤ n) : threshold n < n := Nat.mod_lt _ hpos

/-- R83(a): the offset of a draw is one of `0 .. n - 1`. -/
theorem hi64_lt {n : Nat} (hpos : 1 ≤ n) (y : Word64) : hi64 (y.toNat * n) < n :=
  Nat.div_lt_of_lt_mul (Nat.mul_lt_mul_of_pos_right y.isLt hpos)

/-! ### Counting the draws -/

/-- The accepted draws of offset `j` are those whose product lies in the `j`-th stretch of 2^64 numbers, past its first
`2^64 mod n`: the length of what is left is a multiple of `n`. -/
theorem accepted_hi64_iff (n j : Nat) (y : Word64) :
    accepted n y = true ∧ hi64 (y.toNat * n) = j ↔
      2 ^ 64 * j + 2 ^ 64 % n ≤ n * y.toNat ∧ n * y.toNat < 2 ^ 64 * j + 2 ^ 64 % n + n * (2 ^ 64 / n) := by
  have stretch := Nat.mod_add_div (2 ^ 64) n
  rw [accepted_iff, hi64, mul_comm y.toNat]
  omega

/-- The multiples of `n` among `n * q` consecutive numbers are those of `q` consecutive factors. -/
theorem mul_mem_stretch_iff {n : Nat} (hpos : 1 ≤ n) (a q z : Nat) :
    (a ≤ n * z ∧ n * z < a + n * q) ↔ z ∈ Finset.Ico (a ⌈/⌉ n) (a ⌈/⌉ n + q) := by
  have beyond : a + n * q ≤ n * z ↔ a ⌈/⌉ n + q ≤ z := by
    rcases Nat.lt_or_ge z q with hz | hz
    · have := Nat.mul_lt_mul_of_pos_left hz hpos
      omega
    · obtain ⟨e, rfl⟩ := Nat.exists_eq_add_of_le' hz
      rw [Nat.mul_add, Nat.add_le_add_iff_right, Nat.add_le_add_iff_right, ceilDiv_le_iff_le_mul hpos]
  rw [Finset.mem_Ico, ceilDiv_le_iff_le_mul hpos, ← not_le, ← not_le, beyond]

/-- R83(c): each offset comes from the same number of accepted draws. -/
theorem card_accepted_hi64 {n j : Nat} (hpos : 1 ≤ n) (hj : j < n) :
    (Finset.univ.filter fun y : Word64 => accepted n y = true ∧ hi64 (y.toNat * n) = j).card = 2 ^ 64 / n := by
  have members := mul_mem_stretch_iff hpos (2 ^ 64 * j + 2 ^ 64 % n) (2 ^ 64 / n)
  have small : ∀ z, n * z < 2 ^ 64 * j + 2 ^ 64 % n + n * (2 ^ 64 / n) → z < 2 ^ 64 := by
    intro z hz
    have stretch := Nat.mod_add_div (2 ^ 64) n
    have last : 2 ^ 64 * j + 2 ^ 64 ≤ n * 2 ^ 64 := by omega
    exact Nat.lt_of_mul_lt_mul_left (a := n) (by omega)
  calc _ = (Finset.Ico _ _).card := Finset.card_nbij' BitVec.toNat (BitVec.ofNat 64)
          (fun y hy => by
            rw [Finset.mem_coe, Finset.mem_filter_univ, accepted_hi64_iff, members] at hy
            exact hy)
          (fun z hz => by
            rw [Finset.mem_coe, ← members] at hz
            rw [Finset.mem_coe, Finset.mem_filter_univ, accepted_hi64_iff, BitVec.toNat_ofNat,
              Nat.mod_eq_of_lt (small z hz.2)]
            exact hz)
          (fun y _ => BitVec.ofNat_toNat _ y)
          (fun z hz => by
            rw [Finset.mem_coe, ← members] at hz
            exact Nat.mod_eq_of_lt (small z hz.2))
    _ = 2 ^ 64 / n := by rw [Nat.card_Ico, Nat.add_sub_cancel_left]

/-- Over all offsets: a multiple of `n` draws is accepted. -/
theorem card_accepted {n : Nat} (hpos : 1 ≤ n) :
    (Finset.univ.filter fun y : Word64 => accepted n y = true).card = n * (2 ^ 64 / n) := by
  rw [Finset.card_eq_sum_card_fiberwise (t := Finset.range n) (f := fun y : Word64 => hi64 (y.toNat * n))
    fun y _ => Finset.mem_coe.mpr (Finset.mem_range.mpr (hi64_lt hpos y))]
  simp only [Finset.filter_filter]
  rw [Finset.sum_congr rfl fun j hj => card_accepted_hi64 hpos (Finset.mem_range.mp hj), Finset.sum_const,
    Finset.card_range, smul_eq_mul]

/-- R83(b): the rejected draws are what is left, `2^64 mod n` of them. -/
theorem card_rejected {n : Nat} (hpos : 1 ≤ n) :
    (Finset.univ.filter fun y : Word64 => accepted n y = false).card = threshold n := by
  have all := Finset.card_filter_add_card_filter_not (s := Finset.univ) fun y : Word64 => accepted n y = true
  have division := Nat.mod_add_div (2 ^ 64) n
  rw [card_accepted hpos, Finset.card_univ, card_word64] at all
  simp only [Bool.not_eq_true] at all
  rw [threshold]
  omega

/-! ### Where the loop ends -/

/-- Draws that are all rejected are at most `2^64 mod n` in number, since the draws of one period are different. -/
theorem rejected_draws_le_threshold {p : Params} {x : Word64} {n m : Nat} (hpos : 1 ≤ n) (hm : m < 2 ^ 64)
    (rejected : ∀ j, 1 ≤ j → j ≤ m → accepted n (p.orbit x j) = false) : m ≤ threshold n := by
  rw [← card_rejected hpos]
  calc m = (Finset.Icc 1 m).card := by rw [Nat.card_Icc, Nat.add_sub_cancel]
    _ ≤ _ := Finset.card_le_card_of_injOn (p.orbit x) (fun j hj => ?_) fun i hi j hj same => ?_
  · obtain ⟨h1, h2⟩ := Finset.mem_Icc.mp hj
    exact Finset.mem_coe.mpr ((Finset.mem_filter_univ _).mpr (rejected j h1 h2))
  · obtain ⟨-, hi⟩ := Finset.mem_Icc.mp hi
    obtain ⟨-, hj⟩ := Finset.mem_Icc.mp hj
    exact ((p.orbit_eq_orbit_iff x i j).mp same).eq_of_lt_of_lt (by omega) (by omega)

theorem rangeMap_of_acceptedDraw {p : Params} {lo span x y : Word64}
    (h : acceptedDraw p (span.toNat + 1) wholePeriod x = some y) :
    rangeMap p lo span x = some (y, lo + BitVec.ofNat 64 (y.toNat * (span.toNat + 1) / 2 ^ 64)) := by
  simp only [rangeMap, h, u64, hi64, BitVec.ofNat_add, BitVec.ofNat_toNat, BitVec.setWidth_eq]

/-- R80, R83(b), (d): the range mapping answers its first accepted draw, which is among the first `t + 1`. -/
theorem rangeMap_eq_first_accepted (p : Params) (lo span x : Word64) {n : Nat} (hn : n = span.toNat + 1) :
    ∃ k, 1 ≤ k ∧ k ≤ 2 ^ 64 % n + 1 ∧
      (∀ j, 1 ≤ j → j < k → (p.orbit x j).toNat * n % 2 ^ 64 < 2 ^ 64 % n) ∧
      2 ^ 64 % n ≤ (p.orbit x k).toNat * n % 2 ^ 64 ∧
      rangeMap p lo span x = some (p.orbit x k, lo + BitVec.ofNat 64 ((p.orbit x k).toNat * n / 2 ^ 64)) := by
  subst hn
  obtain ⟨k, hk, hk', rejected, acc, found⟩ | ⟨-, endless⟩ := acceptedDraw_cases p (span.toNat + 1) wholePeriod x
  · have period : k ≤ 2 ^ 64 := hk'
    have early : k - 1 ≤ 2 ^ 64 % (span.toNat + 1) :=
      rejected_draws_le_threshold (by omega) (by omega) fun j h1 h2 => rejected j h1 (by omega)
    exact ⟨k, hk, by omega, fun j h1 h2 => (accepted_eq_false_iff _ _).mp (rejected j h1 h2),
      (accepted_iff _ _).mp acc, rangeMap_of_acceptedDraw found⟩
  · have ends := acceptedDraw_isSome (n := span.toNat + 1) (by omega) (by omega) p x
    simp [endless] at ends

end Machine

namespace Proofs
open Machine

/-- Settles O34: the draws before the accepted one are different rejected words, and there are only `2^64 mod n` of these. -/
theorem rangeMapEndsWithinThreshold : Obligations.RangeMapEndsWithinThreshold := by
  rintro p lo span x n t hn rfl
  obtain ⟨k, hk, early, rejected, acc, mapped⟩ := rangeMap_eq_first_accepted p lo span x hn
  exact ⟨k, hk, early, by omega, rejected, acc, mapped⟩

/-- Settles O35: a draw that is not rejected has one of `n` offsets, and each offset comes from equally many draws. -/
theorem thresholdCountsRejectedDraws : Obligations.ThresholdCountsRejectedDraws := by
  intro n hpos hn
  have below := threshold_lt hpos
  have rest := threshold_le_sub hn
  exact ⟨fun y => Nat.le_pred_of_lt (hi64_lt hpos y), card_rejected hpos, by omega, rest, by omega⟩

/-- Settles O36: the products accepted with offset `j` are the multiples of `n` in a stretch of `n * floor(2^64 / n)` numbers. -/
theorem rangeMapIsUniform : Obligations.RangeMapIsUniform :=
  fun _ _ hpos _ hj => card_accepted_hi64 hpos hj

/-- Settles O37: subtracting `n` once keeps the remainder, the threshold is below `n`, and dividing by 2^64 undoes the product. -/
theorem narrowDatapathAgrees : Obligations.NarrowDatapathAgrees := by
  refine ⟨fun n hpos hn => ⟨Nat.mod_eq_sub_mod hn.le, fun y hy => ?_⟩, Nat.mod_self _, fun y => ⟨?_, ?_⟩⟩
  · exact decide_eq_true ((threshold_lt hpos).le.trans hy)
  · rw [accepted_iff, Nat.mod_self]
    exact Nat.zero_le _
  · exact Nat.mul_div_cancel _ (Nat.two_pow_pos 64)

end Proofs
end Sys2Proof
end

