-- ==== Sys2Proof/Proofs/Floats.lean ====
section
/-!
SUPPORT. The float constructors of spec/41_derivation.md R85 and R87: the fields of the pattern, and its exact value.
-/
namespace Sys2Proof.Machine

/-! ### The significand -/

/-- Left-aligned in its format, a number is the implicit bit and the fraction below it. -/
theorem implicit_bit_add_fraction {m f : Nat} (hm : m ≠ 0) (hf : m < 2 ^ (f + 1)) :
    2 ^ f + m * 2 ^ (f - m.log2) % 2 ^ f = m * 2 ^ (f - m.log2) := by
  have top : m.log2 < f + 1 := (Nat.log2_lt hm).mpr hf
  have low : 2 ^ f ≤ m * 2 ^ (f - m.log2) := by
    calc 2 ^ f = 2 ^ m.log2 * 2 ^ (f - m.log2) := by rw [← pow_add, Nat.add_sub_of_le (by omega)]
      _ ≤ _ := Nat.mul_le_mul_right _ (Nat.log2_self_le hm)
  have high : m * 2 ^ (f - m.log2) < 2 ^ f + 2 ^ f := by
    calc m * 2 ^ (f - m.log2) < 2 ^ (m.log2 + 1) * 2 ^ (f - m.log2) :=
          Nat.mul_lt_mul_of_pos_right Nat.lt_log2_self (Nat.two_pow_pos _)
      _ = 2 ^ f + 2 ^ f := by rw [← pow_add, ← Nat.two_mul, ← pow_succ']; congr 1; omega
  rw [Nat.mod_eq_sub_mod low, Nat.mod_eq_of_lt (by omega)]
  omega

/-- The exponent takes the alignment of the significand back: what is left is `m * 2^-w`. -/
theorem significand_scaled {m f : Nat} (hm : m ≠ 0) (hf : m < 2 ^ (f + 1)) (bias w : Nat) :
    (2 ^ f + (m * 2 ^ (f - m.log2) % 2 ^ f : Nat) : ℚ) * 2 ^ (m.log2 + bias) / 2 ^ (f + bias + w) = m / 2 ^ w := by
  have top : m.log2 < f + 1 := (Nat.log2_lt hm).mpr hf
  have significand : (2 ^ f + (m * 2 ^ (f - m.log2) % 2 ^ f : Nat) : ℚ) = m * 2 ^ (f - m.log2) := by
    exact_mod_cast implicit_bit_add_fraction hm hf
  have aligned : (2 : ℚ) ^ (f - m.log2) * 2 ^ (m.log2 + bias) = 2 ^ (f + bias) := by
    rw [← pow_add]
    congr 1
    omega
  rw [significand, mul_assoc, aligned, pow_add _ (f + bias), mul_comm (m : ℚ), mul_div_mul_left _ _ (by positivity)]

/-! ### The pattern -/

/-- The pattern that R85 and R87 build of `m`, not 0, in a format of `e` exponent and `f` fraction bits. -/
def normalPattern (e f bias m : Nat) : BitVec (1 + e + f) :=
  0#1 ++ BitVec.ofNat e (m.log2 + bias) ++ BitVec.ofNat f (m * 2 ^ (f - m.log2))

theorem f64_eq {m : BitVec 53} (hm : m ≠ 0) : f64 m = normalPattern 11 52 970 m.toNat := by
  rw [f64, if_neg hm, normalPattern]

theorem f32_eq {m : BitVec 24} (hm : m ≠ 0) : f32 m = normalPattern 8 23 103 m.toNat := by
  rw [f32, if_neg hm, normalPattern]

section
variable (e f bias m : Nat)

theorem normalPattern_sign : (normalPattern e f bias m).getLsbD (e + f) = false := by
  rw [normalPattern, BitVec.getLsbD_append, if_neg (by omega), BitVec.getLsbD_append, if_neg (by omega),
    BitVec.getLsbD_zero]

theorem normalPattern_fraction :
    ((normalPattern e f bias m).extractLsb' 0 f).toNat = m * 2 ^ (f - m.log2) % 2 ^ f := by
  rw [normalPattern, BitVec.extractLsb'_append_eq_right, BitVec.toNat_ofNat]

theorem normalPattern_exponent :
    ((normalPattern e f bias m).extractLsb' f e).toNat = (m.log2 + bias) % 2 ^ e := by
  rw [normalPattern, BitVec.extractLsb'_append_eq_of_le le_rfl, Nat.sub_self, BitVec.extractLsb'_append_eq_right,
    BitVec.toNat_ofNat]

end

theorem log2_toNat_lt {w : Nat} {m : BitVec w} (hm : m ≠ 0) : m.toNat.log2 < w :=
  (Nat.log2_lt (BitVec.toNat_pos_of_ne_zero hm).ne').mpr m.isLt

/-! ### F64 -/

theorem f64_sign (m : BitVec 53) : (f64 m).getLsbD 63 = false := by
  by_cases hm : m = 0
  · subst hm
    rfl
  · rw [f64_eq hm]
    exact normalPattern_sign _ _ _ _

theorem f64_exponent {m : BitVec 53} (hm : m ≠ 0) : ((f64 m).extractLsb' 52 11).toNat = m.toNat.log2 + 970 := by
  have top := log2_toNat_lt hm
  rw [f64_eq hm, normalPattern_exponent]
  omega

theorem binary64Value_normal {w : Word64} (sign : w.getLsbD 63 = false) (normal : (w.extractLsb' 52 11).toNat ≠ 0) :
    binary64Value w = (2 ^ 52 + (w.extractLsb' 0 52).toNat) * 2 ^ (w.extractLsb' 52 11).toNat / 2 ^ 1075 := by
  simp only [binary64Value, sign, if_neg normal, Bool.false_eq_true, if_false]

theorem binary64Value_f64 (m : BitVec 53) : binary64Value (f64 m) = m.toNat / 2 ^ 53 := by
  by_cases hm : m = 0
  · subst hm
    simp [f64, binary64Value]
  · have exponent := f64_exponent hm
    rw [binary64Value_normal (f64_sign m) (by omega), exponent, f64_eq hm, normalPattern_fraction]
    exact significand_scaled (BitVec.toNat_pos_of_ne_zero hm).ne' m.isLt 970 53

/-! ### F32 -/

theorem f32_sign (m : BitVec 24) : (f32 m).getLsbD 31 = false := by
  by_cases hm : m = 0
  · subst hm
    rfl
  · rw [f32_eq hm]
    exact normalPattern_sign _ _ _ _

theorem f32_exponent {m : BitVec 24} (hm : m ≠ 0) : ((f32 m).extractLsb' 23 8).toNat = m.toNat.log2 + 103 := by
  have top := log2_toNat_lt hm
  rw [f32_eq hm, normalPattern_exponent]
  omega

theorem binary32Value_normal {w : BitVec 32} (sign : w.getLsbD 31 = false) (normal : (w.extractLsb' 23 8).toNat ≠ 0) :
    binary32Value w = (2 ^ 23 + (w.extractLsb' 0 23).toNat) * 2 ^ (w.extractLsb' 23 8).toNat / 2 ^ 150 := by
  simp only [binary32Value, sign, if_neg normal, Bool.false_eq_true, if_false]

theorem binary32Value_f32 (m : BitVec 24) : binary32Value (f32 m) = m.toNat / 2 ^ 24 := by
  by_cases hm : m = 0
  · subst hm
    simp [f32, binary32Value]
  · have exponent := f32_exponent hm
    rw [binary32Value_normal (f32_sign m) (by omega), exponent, f32_eq hm, normalPattern_fraction]
    exact significand_scaled (BitVec.toNat_pos_of_ne_zero hm).ne' m.isLt 103 24

/-! ### The interval [0, 1) -/

theorem toNat_div_two_pow_lt_one {w : Nat} (m : BitVec w) : (m.toNat : ℚ) / 2 ^ w < 1 := by
  rw [div_lt_one (by positivity)]
  exact_mod_cast m.isLt

theorem binary64Value_one : binary64Value 0x3FF0000000000000 = 1 := by
  have exponent : ((0x3FF0000000000000 : Word64).extractLsb' 52 11).toNat = 1023 := by decide
  have fraction : ((0x3FF0000000000000 : Word64).extractLsb' 0 52).toNat = 0 := by decide
  rw [binary64Value_normal (by decide) (by decide), exponent, fraction, Nat.cast_zero, add_zero, ← pow_add]
  exact div_self (pow_ne_zero _ two_ne_zero)

theorem binary32Value_one : binary32Value 0x3F800000 = 1 := by
  have exponent : ((0x3F800000 : BitVec 32).extractLsb' 23 8).toNat = 127 := by decide
  have fraction : ((0x3F800000 : BitVec 32).extractLsb' 0 23).toNat = 0 := by decide
  rw [binary32Value_normal (by decide) (by decide), exponent, fraction, Nat.cast_zero, add_zero, ← pow_add]
  exact div_self (pow_ne_zero _ two_ne_zero)

end Sys2Proof.Machine

namespace Sys2Proof.Proofs
open Machine

/-- Settles O39: the exponent field takes back the left alignment of the significand. -/
theorem float64PatternIsExact : Obligations.Float64PatternIsExact := by
  refine fun m => ⟨binary64Value_f64 m, f64_sign m, fun hm => if_pos hm, fun hm => ?_⟩
  have top := log2_toNat_lt hm
  rw [f64_exponent hm]
  omega

/-- Settles O40: as for F64, in the fields of the narrower format. -/
theorem float32PatternIsExact : Obligations.Float32PatternIsExact := by
  refine fun m => ⟨binary32Value_f32 m, f32_sign m, fun hm => if_pos hm, fun hm => ?_⟩
  have top := log2_toNat_lt hm
  rw [f32_exponent hm]
  omega

end Sys2Proof.Proofs
end

