-- ==== Sys2Proof/Proofs/Derivation.lean ====
section
/-!
SUPPORT. The family 41_derivation: what each command of the derivation unit answers on a written generator, with the fields of
the draw (spec/41_derivation.md R84 to R90) and the results of the range mapping (R81, R82) as numbers.
-/
namespace Sys2Proof

/-- An opcode that has a width leaves no room in bits 7 to 4 (R56). -/
theorem decode_illegal_of_ne_lowByte {r : Request} {op : Nat} (named : r.cmd.toNat % 16 = op)
    (other : r.cmd.toNat % 256 ≠ op) : ∃ why, decode r = .illegal why :=
  (decode_illegal_iff r).mpr (.inr (.inl (by omega)))

namespace Machine

/-! ### The fields of a draw -/

section
variable {w : Nat} (hw : w ≤ 64)
include hw

theorem topBits_toNat (x : Word64) : (topBits w x).toNat = x.toNat / 2 ^ (64 - w) := by
  have field : x.toNat / 2 ^ (64 - w) < 2 ^ w := by
    rw [Nat.div_lt_iff_lt_mul (Nat.two_pow_pos _), ← pow_add, Nat.add_sub_of_le hw]
    exact x.isLt
  rw [topBits, BitVec.toNat_setWidth, BitVec.toNat_ushiftRight, Nat.shiftRight_eq_div_pow, Nat.mod_eq_of_lt field]

theorem topBits_msb (hpos : 0 < w) (x : Word64) : (topBits w x).msb = x.getLsbD 63 := by
  rw [BitVec.msb_eq_getLsbD_last, topBits, BitVec.getLsbD_setWidth, BitVec.getLsbD_ushiftRight,
    show 64 - w + (w - 1) = 63 by omega]
  simp [hpos]

theorem zext64_toNat (v : BitVec w) : (zext64 v).toNat = v.toNat := BitVec.toNat_setWidth_of_le hw

theorem sext64_toInt (v : BitVec w) : (sext64 v).toInt = v.toInt := BitVec.toInt_signExtend_of_le hw

/-- R90: the sign of the field is the top bit of the draw. -/
theorem topBits_toInt (hpos : 0 < w) (x : Word64) :
    (topBits w x).toInt =
      if x.getLsbD 63 then ((x.toNat / 2 ^ (64 - w) : Nat) - 2 ^ w : Int) else (x.toNat / 2 ^ (64 - w) : Nat) := by
  rw [BitVec.toInt_eq_msb_cond, topBits_msb hw hpos, topBits_toNat hw, Nat.cast_pow, Nat.cast_ofNat]

end

theorem topBits_whole (x : Word64) : topBits 64 x = x := by
  rw [topBits, Nat.sub_self, BitVec.ushiftRight_zero, BitVec.setWidth_eq]

theorem top24_topBits_toNat (x : Word64) : (top24 (topBits 32 x)).toNat = x.toNat / 2 ^ 40 := by
  rw [top24, BitVec.toNat_setWidth, BitVec.toNat_ushiftRight, Nat.shiftRight_eq_div_pow, topBits_toNat (by decide)]
  omega

/-- R88: the top bit as a word. -/
theorem zext64_topBits_one (x : Word64) : zext64 (topBits 1 x) = if x.getLsbD 63 then 1 else 0 := by
  have bit : (x.getLsbD 63).toNat = x.toNat / 2 ^ 63 := by
    rw [BitVec.getLsbD, Nat.toNat_testBit]
    omega
  refine BitVec.eq_of_toNat_eq ?_
  rw [zext64_toNat (by decide), topBits_toNat (by decide), ← bit]
  cases x.getLsbD 63 <;> rfl

theorem setWidth_zext64 (v : BitVec 32) : (zext64 v).setWidth 32 = v := by
  rw [zext64, BitVec.setWidth_setWidth_of_le _ (by decide), BitVec.setWidth_eq]

/-- R86: the upper bits of RESULT and the sign are 0. -/
theorem zext64_f32_lt (m : BitVec 24) : (zext64 (f32 m)).toNat < 2 ^ 31 := by
  have sign := f32_sign m
  rw [← BitVec.msb_eq_getLsbD_last, BitVec.msb_eq_false_iff_two_mul_lt] at sign
  rw [zext64_toNat (by decide)]
  omega

/-! ### Commands on a written generator -/

section
variable {s : State} {x : Word64} (hx : s.state = some x)
include hx

theorem respondDraw_orbit (f : Word64 → Word64) :
    respondDraw f s =
      .next (respond .ok (f (s.params.orbit x 1)) { s with state := some (s.params.orbit x 1) }) := by
  rw [respondDraw_written hx, s.params.orbit_succ x 0]
  rfl

theorem widthChecked_orbit {n : SizeField} (valid : n.toNat = 8 ∨ n.toNat = 16 ∨ n.toNat = 32 ∨ n.toNat = 64)
    (f : Word64 → Word64) :
    widthChecked n f s =
      .next (respond .ok (f (s.params.orbit x 1)) { s with state := some (s.params.orbit x 1) }) := by
  rw [widthChecked, if_pos ((widthValid_iff_toNat n).mpr valid), respondDraw_orbit hx]

theorem respondRange_of_rangeMap {lo span y v : Word64} (mapped : rangeMap s.params lo span x = some (y, v)) :
    respondRange lo span s = .next (respond .ok v { s with state := some y }) := by
  simp [respondRange, hx, mapped]

variable (hs : s.seeded = true)
include hs

theorem exec_float64_written :
    exec .float64 s = .next (respond .ok (f64 (topBits 53 (s.params.orbit x 1)))
      { s with state := some (s.params.orbit x 1) }) := by
  rw [exec_float64, whenSeeded_seeded hs, respondDraw_orbit hx]

theorem exec_float32_written :
    exec .float32 s = .next (respond .ok (zext64 (f32 (top24 (topBits 32 (s.params.orbit x 1)))))
      { s with state := some (s.params.orbit x 1) }) := by
  rw [exec_float32, whenSeeded_seeded hs, respondDraw_orbit hx]

theorem exec_bool_written :
    exec .bool s = .next (respond .ok (zext64 (topBits 1 (s.params.orbit x 1)))
      { s with state := some (s.params.orbit x 1) }) := by
  rw [exec_bool, whenSeeded_seeded hs, respondDraw_orbit hx]

theorem exec_rangeu_of_rangeMap {lo hi y v : Word64} (h : lo.toNat ≤ hi.toNat)
    (mapped : rangeMap s.params lo (spanOf lo hi) x = some (y, v)) :
    exec (.rangeu lo hi) s = .next (respond .ok v { s with state := some y }) := by
  rw [exec_rangeu, whenSeeded_seeded hs, if_neg (mt (rangeuInvalid_iff lo hi).mp h.not_gt),
    respondRange_of_rangeMap hx mapped]

theorem exec_ranges_of_rangeMap {lo hi y v : Word64} (h : lo.toInt ≤ hi.toInt)
    (mapped : rangeMap s.params lo (spanOf lo hi) x = some (y, v)) :
    exec (.ranges lo hi) s = .next (respond .ok v { s with state := some y }) := by
  rw [exec_ranges, whenSeeded_seeded hs, if_neg (mt (rangesInvalid_iff lo hi).mp h.not_gt),
    respondRange_of_rangeMap hx mapped]

end

/-! ### Bounds and offsets of the range commands -/

section
variable {s : State} {lo hi : Word64}

theorem exec_rangeu_invalid (hs : s.seeded = true) (h : hi.toNat < lo.toNat) :
    exec (.rangeu lo hi) s = .next (respond .invalidRange 0 s) := by
  rw [exec_rangeu, whenSeeded_seeded hs, if_pos ((rangeuInvalid_iff lo hi).mpr h), raise_eq]

theorem exec_ranges_invalid (hs : s.seeded = true) (h : hi.toInt < lo.toInt) :
    exec (.ranges lo hi) s = .next (respond .invalidRange 0 s) := by
  rw [exec_ranges, whenSeeded_seeded hs, if_pos ((rangesInvalid_iff lo hi).mpr h), raise_eq]

theorem spanOf_toNat (h : lo.toNat ≤ hi.toNat) : (spanOf lo hi).toNat = hi.toNat - lo.toNat :=
  BitVec.toNat_sub_of_le h

/-- R82: the span of signed bounds is their difference, which needs all 64 bits. -/
theorem spanOf_toNat_signed (h : lo.toInt ≤ hi.toInt) : ((spanOf lo hi).toNat : Int) = hi.toInt - lo.toInt := by
  simp only [BitVec.toInt_eq_toNat_cond] at h ⊢
  rw [spanOf, BitVec.toNat_sub]
  omega

/-- R83(a): no wrap within unsigned bounds. -/
theorem add_offset_toNat {d : Nat} (h : lo.toNat + d ≤ hi.toNat) : (lo + BitVec.ofNat 64 d).toNat = lo.toNat + d := by
  rw [BitVec.toNat_add, BitVec.toNat_ofNat]
  omega

/-- R83(a): no wrap within signed bounds. -/
theorem add_offset_toInt {d : Nat} (h : lo.toInt + d ≤ hi.toInt) : (lo + BitVec.ofNat 64 d).toInt = lo.toInt + d := by
  have low := lo.le_toInt
  have high := hi.toInt_lt
  rw [← BitVec.toInt_ofInt_eq_self (w := 64) (by decide) (n := lo.toInt + d) (by omega) (by omega), BitVec.ofInt_add,
    BitVec.ofInt_toInt, BitVec.ofInt_natCast]

/-- R81: the offset in a range of `2^j` values is the top `j` bits of the draw. -/
theorem offset_two_pow {j : Nat} (hj : j ≤ 64) (y : Word64) :
    BitVec.ofNat 64 (y.toNat * 2 ^ j / 2 ^ 64) = y >>> (64 - j) := by
  have field : y.toNat * 2 ^ j / 2 ^ 64 = y.toNat / 2 ^ (64 - j) := by
    rw [show 2 ^ 64 = 2 ^ (64 - j) * 2 ^ j by rw [← pow_add, Nat.sub_add_cancel hj],
      Nat.mul_div_mul_right _ _ (Nat.two_pow_pos j)]
  rw [field, ← Nat.shiftRight_eq_div_pow, ← BitVec.toNat_ushiftRight, BitVec.ofNat_toNat, BitVec.setWidth_eq]

end

end Machine

namespace Proofs
open Machine

/-- Settles O22: the range mapping answers the first accepted draw, and its offset is at most `max - min`. -/
theorem rangeuDrawsWithinUnsignedBounds : Obligations.RangeuDrawsWithinUnsignedBounds := by
  refine ⟨fun opa opb => decode_of_requestOf (.rangeu opa opb),
    fun _ named other => decode_illegal_of_ne_opcode named (by decide) other, fun _ _ _ hs => exec_unseeded hs (by simp),
    fun _ _ _ => exec_rangeu_invalid, fun s x lo hi hs hx h n hn => ?_⟩
  have span := spanOf_toNat h
  obtain ⟨k, hk, -, rejected, acc, mapped⟩ :=
    rangeMap_eq_first_accepted s.params lo (spanOf lo hi) x (n := n) (by omega)
  have offset : (s.params.orbit x k).toNat * n / 2 ^ 64 < n := hi64_lt (by omega) _
  have value := add_offset_toNat (lo := lo) (hi := hi) (d := (s.params.orbit x k).toNat * n / 2 ^ 64) (by omega)
  exact ⟨k, _, hk, rejected, acc, value, by omega, by omega, exec_rangeu_of_rangeMap hx hs h mapped⟩

/-- Settles O23: as for RANGEU, since neither the span of signed bounds nor the sum of bound and offset wraps. -/
theorem rangesDrawsWithinSignedBounds : Obligations.RangesDrawsWithinSignedBounds := by
  refine ⟨fun opa opb => decode_of_requestOf (.ranges opa opb),
    fun _ named other => decode_illegal_of_ne_opcode named (by decide) other, fun _ _ _ hs => exec_unseeded hs (by simp),
    fun _ _ _ => exec_ranges_invalid, fun s x lo hi hs hx h n hn => ?_⟩
  have span := spanOf_toNat_signed h
  obtain ⟨k, hk, -, rejected, acc, mapped⟩ :=
    rangeMap_eq_first_accepted s.params lo (spanOf lo hi) x (n := n) (by omega)
  have offset : (s.params.orbit x k).toNat * n / 2 ^ 64 < n := hi64_lt (by omega) _
  have value := add_offset_toInt (lo := lo) (hi := hi) (d := (s.params.orbit x k).toNat * n / 2 ^ 64) (by omega)
  exact ⟨k, _, hk, rejected, acc, value, by omega, by omega, exec_ranges_of_rangeMap hx hs h mapped⟩

/-- Settles O24: RESULT is F64 of the draw's top 53 bits, whose value is exact. -/
theorem float64ScalesTheTopBits : Obligations.Float64ScalesTheTopBits := by
  refine ⟨fun opa opb => decode_of_requestOf (.float64 opa opb),
    fun _ named other => decode_illegal_of_ne_opcode named (by decide) other, fun _ hs => exec_unseeded hs (by simp),
    fun s x hs hx => ⟨_, f64_sign _, ?_, exec_float64_written hx hs⟩⟩
  rw [binary64Value_f64, topBits_toNat (by decide)]

/-- Settles O25: RESULT is F32 of the draw's top 24 bits, whose value is exact. -/
theorem float32ScalesTheTopBits : Obligations.Float32ScalesTheTopBits := by
  refine ⟨fun opa opb => decode_of_requestOf (.float32 opa opb),
    fun _ named other => decode_illegal_of_ne_opcode named (by decide) other, fun _ hs => exec_unseeded hs (by simp),
    fun s x hs hx => ⟨_, zext64_f32_lt _, ?_, exec_float32_written hx hs⟩⟩
  rw [setWidth_zext64, binary32Value_f32, top24_topBits_toNat]

/-- Settles O26: the top bit of the draw is its bit 63. -/
theorem boolReturnsTheTopBit : Obligations.BoolReturnsTheTopBit := by
  refine ⟨fun opa opb => decode_of_requestOf (.bool opa opb),
    fun _ named other => decode_illegal_of_ne_opcode named (by decide) other, fun _ hs => exec_unseeded hs (by simp),
    fun s x hs hx => ?_⟩
  rw [exec_bool_written hx hs, zext64_topBits_one]
  rfl

/-- Settles O27: the width is checked before the draw, whose top bits fit their width. -/
theorem unsignedTakesTheTopBits : Obligations.UnsignedTakesTheTopBits := by
  refine ⟨fun r h => ?_, fun _ => decode_illegal_of_ne_lowByte, fun _ _ hs => exec_unseeded hs (by simp),
    fun s n hs h8 h16 h32 h64 => ?_, fun s x n hs hx valid => ?_⟩
  · rw [← sizeField_eq_ofNat]
    exact decode_of_requestOf (requestOf_unsigned h r.opa r.opb)
  · rw [exec_unsigned_seeded n hs]
    exact widthChecked_invalid (by omega)
  · have hw : n.toNat ≤ 64 := by omega
    rw [exec_unsigned_seeded n hs, widthChecked_orbit hx valid]
    refine ⟨_, ?_, ?_, rfl⟩
    · rw [zext64_toNat hw, topBits_toNat hw]
    · rw [zext64_toNat hw]
      exact Nat.le_pred_of_lt (BitVec.isLt _)

/-- Settles O28: sign extension keeps the value of the top bits as a two's-complement number of their width. -/
theorem signedTakesTheTopBits : Obligations.SignedTakesTheTopBits := by
  refine ⟨fun r h => ?_, fun _ => decode_illegal_of_ne_lowByte, fun _ _ hs => exec_unseeded hs (by simp),
    fun s n hs h8 h16 h32 h64 => ?_, fun s x n hs hx valid => ?_⟩
  · rw [← sizeField_eq_ofNat]
    exact decode_of_requestOf (requestOf_signed h r.opa r.opb)
  · rw [exec_signed_seeded n hs]
    exact widthChecked_invalid (by omega)
  · have hw : n.toNat ≤ 64 := by omega
    rw [exec_signed_seeded n hs, widthChecked_orbit hx valid]
    refine ⟨_, ?_, ?_, ?_, rfl⟩ <;> rw [sext64_toInt hw]
    · exact topBits_toInt hw (by omega) _
    · exact BitVec.le_toInt _
    · exact Int.le_sub_one_of_lt BitVec.toInt_lt

/-- Settles O38: 2^64 leaves no remainder by `2^j`, so the first draw is accepted. -/
theorem powerOfTwoRangeDrawsOnce : Obligations.PowerOfTwoRangeDrawsOnce := by
  intro s x lo hi j hs hx hj h
  have h' : lo.toNat ≤ hi.toNat := by omega
  have span := spanOf_toNat h'
  have pos := Nat.two_pow_pos j
  have even : 2 ^ 64 % 2 ^ j = 0 := Nat.mod_eq_zero_of_dvd (pow_dvd_pow 2 hj)
  obtain ⟨k, hk, early, -, -, mapped⟩ :=
    rangeMap_eq_first_accepted s.params lo (spanOf lo hi) x (n := 2 ^ j) (by omega)
  obtain rfl : k = 1 := by omega
  rw [exec_rangeu_of_rangeMap hx hs h' mapped, offset_two_pow hj]
  rfl

/-- Settles O41: the value of RESULT is `m * 2^-w` with `m` of `w` bits, and the pattern of 1.0 has the value 1. -/
theorem floatsStayBelowOne : Obligations.FloatsStayBelowOne := by
  refine fun s x hs hx => ⟨⟨_, _, exec_float64_written hx hs, rfl, ?_⟩, ⟨_, _, exec_float32_written hx hs, rfl, ?_⟩⟩
  · have below := toNat_div_two_pow_lt_one (topBits 53 (s.params.orbit x 1))
    rw [← binary64Value_f64] at below
    refine ⟨?_, below, fun one => ?_⟩
    · rw [binary64Value_f64]
      positivity
    · rw [one, binary64Value_one] at below
      exact below.false
  · have below := toNat_div_two_pow_lt_one (top24 (topBits 32 (s.params.orbit x 1)))
    rw [← binary32Value_f32, ← setWidth_zext64 (f32 _)] at below
    refine ⟨?_, below, fun one => ?_⟩
    · rw [setWidth_zext64, binary32Value_f32]
      positivity
    · rw [one] at below
      exact below.ne binary32Value_one

/-- Settles O30: the top 64 bits of a draw are the draw, and extending a word of 64 bits adds none. -/
theorem fullWidthTakesTheWholeDraw : Obligations.FullWidthTakesTheWholeDraw := by
  have unsigned : (fun x => zext64 (topBits (64 : SizeField).toNat x)) = fun x => x :=
    funext fun x => (BitVec.setWidth_eq _).trans (topBits_whole x)
  have signed : (fun x => sext64 (topBits (64 : SizeField).toNat x)) = fun x => x :=
    funext fun x => (BitVec.signExtend_eq _).trans (topBits_whole x)
  intro s
  rw [exec_unsigned, exec_signed, exec_next, unsigned, signed]
  exact ⟨rfl, rfl⟩

end Proofs
end Sys2Proof
end

