-- ==== Sys2Proof/Proofs/Selection.lean ====
section
/-!
SUPPORT. The family 42_selection: PICK as the range command from 0 (spec/42_selection.md R101), and the host's lookup of the
index (R102, R103).
-/
namespace Sys2Proof.Machine

theorem exec_pick_zero {s : State} (hs : s.seeded = true) : exec (.pick 0) s = .next (respond .absent 0 s) := by
  rw [exec_pick, whenSeeded_seeded hs, if_pos rfl, raise_eq]

/-- R101: a pick from a sequence that is not empty is RANGEU from 0 to its last index, in every state. -/
theorem exec_pick_eq_rangeu {n : Word64} (hn : n ≠ 0) (s : State) : exec (.pick n) s = exec (.rangeu 0 (n - 1)) s := by
  have valid : ¬rangeuInvalid 0 (n - 1) = true := mt (rangeuInvalid_iff 0 (n - 1)).mp (Nat.not_lt_zero _)
  have span : spanOf 0 (n - 1) = n - 1 := BitVec.sub_zero _
  rw [exec_pick, exec_rangeu]
  simp only [if_neg hn, if_neg valid, span]

/-- R103: an index below the length is in bounds for the host. -/
theorem hostReference_of_lt {α : Type} {sequence : List α} {v : Word64} (h : v.toNat < sequence.length) :
    hostReference sequence ⟨.ok, v⟩ = some sequence[v.toNat] :=
  List.getElem?_eq_getElem h

end Sys2Proof.Machine

namespace Sys2Proof.Proofs
open Machine

/-- Settles O29: PICK of a length `n` that is not 0 is RANGEU 0, n - 1, a range of `n` values. -/
theorem pickDrawsAnIndex : Obligations.PickDrawsAnIndex := by
  refine ⟨fun opa opb => decode_of_requestOf (.pick opa opb),
    fun _ named other => decode_illegal_of_ne_opcode named (by decide) other, fun _ _ hs => exec_unseeded hs (by simp),
    fun _ => exec_pick_zero, fun s x n hs hx hn => ?_, fun s _ hn => exec_pick_eq_rangeu hn s⟩
  have pos : n.toNat ≠ 0 := fun zero => hn (BitVec.eq_of_toNat_eq zero)
  have last : (n - 1).toNat = n.toNat - 1 := BitVec.toNat_sub_of_le (Nat.one_le_iff_ne_zero.mpr pos)
  have values : n.toNat = (n - 1).toNat + 1 := by omega
  obtain ⟨-, -, -, -, draws⟩ := rangeuDrawsWithinUnsignedBounds
  obtain ⟨k, v, hk, rejected, acc, value, -, bound, drawn⟩ :=
    draws s x 0 (n - 1) hs hx (Nat.zero_le _) n.toNat values
  exact ⟨k, v, hk, rejected, acc, value.trans (Nat.zero_add _), last ▸ bound, (exec_pick_eq_rangeu hn s).trans drawn⟩

/-- Settles O42: PICK 0 answers NONE without a draw, and otherwise the index drawn is below the length of the sequence. -/
theorem pickedElementIsInTheSequence : Obligations.PickedElementIsInTheSequence := by
  refine fun α sequence s x hs hx => ⟨fun _ => ⟨_, _, exec_pick_zero hs, rfl, rfl, rfl, rfl⟩, fun nonempty short => ?_⟩
  have length : (BitVec.ofNat 64 sequence.length).toNat = sequence.length := Nat.mod_eq_of_lt short
  have pos : 0 < sequence.length := List.length_pos_iff.mpr nonempty
  have hn : BitVec.ofNat 64 sequence.length ≠ 0 := by
    intro zero
    rw [zero] at length
    exact pos.ne length
  obtain ⟨-, -, -, -, draws, -⟩ := pickDrawsAnIndex
  obtain ⟨k, v, -, -, -, -, bound, drawn⟩ := draws s x _ hs hx hn
  rw [length] at bound
  have inBounds : v.toNat < sequence.length := by omega
  exact ⟨_, _, _, drawn, rfl, rfl, bound, hostReference_of_lt inBounds, List.getElem_mem inBounds⟩

end Sys2Proof.Proofs
end

