-- ==== Sys2Proof/Proofs/Exceptions.lean ====
section
/-!
SUPPORT. The family 60_exceptions: which condition refuses which command (R110, R113, R114, R115), that the STATUS tells the
condition and is told by it, and what a refused command leaves (R108, R109).
-/
namespace Sys2Proof.Machine

section
variable {i : Instr} {s t : State} {a : Response} {e : Status}

/-! ### The condition of each status -/

theorem refuses_notSeeded_iff : Refuses s i .notSeeded ↔ s.seeded = false ∧ ∀ v, i ≠ .seed v :=
  ⟨fun | .notSeeded hs hi => ⟨hs, hi⟩, fun ⟨hs, hi⟩ => .notSeeded hs hi⟩

theorem refuses_invalidRange_iff :
    Refuses s i .invalidRange ↔ s.seeded = true ∧
      ((∃ lo hi, i = .rangeu lo hi ∧ hi.toNat < lo.toNat) ∨ (∃ lo hi, i = .ranges lo hi ∧ hi.toInt < lo.toInt)) := by
  constructor
  · intro h
    cases h with
    | rangeu hs h => exact ⟨hs, .inl ⟨_, _, rfl, (rangeuInvalid_iff _ _).mp h⟩⟩
    | ranges hs h => exact ⟨hs, .inr ⟨_, _, rfl, (rangesInvalid_iff _ _).mp h⟩⟩
  · rintro ⟨hs, ⟨lo, hi, rfl, h⟩ | ⟨lo, hi, rfl, h⟩⟩
    · exact .rangeu hs ((rangeuInvalid_iff lo hi).mpr h)
    · exact .ranges hs ((rangesInvalid_iff lo hi).mpr h)

theorem not_widthValid_iff (n : SizeField) :
    widthValid n ≠ true ↔ n.toNat ≠ 8 ∧ n.toNat ≠ 16 ∧ n.toNat ≠ 32 ∧ n.toNat ≠ 64 := by
  simp only [Ne, widthValid_iff_toNat, not_or]

theorem refuses_invalidBitWidth_iff :
    Refuses s i .invalidBitWidth ↔ s.seeded = true ∧ ∃ n : SizeField, (i = .unsigned n ∨ i = .signed n) ∧
      n.toNat ≠ 8 ∧ n.toNat ≠ 16 ∧ n.toNat ≠ 32 ∧ n.toNat ≠ 64 := by
  constructor
  · intro h
    cases h with
    | unsigned hs h => exact ⟨hs, _, .inl rfl, (not_widthValid_iff _).mp h⟩
    | signed hs h => exact ⟨hs, _, .inr rfl, (not_widthValid_iff _).mp h⟩
  · rintro ⟨hs, n, rfl | rfl, h⟩
    · exact .unsigned hs ((not_widthValid_iff n).mpr h)
    · exact .signed hs ((not_widthValid_iff n).mpr h)

theorem refuses_absent_iff : Refuses s i .absent ↔ s.seeded = true ∧ i = .pick 0 :=
  ⟨fun | .pick hs h => ⟨hs, congrArg Instr.pick h⟩, fun ⟨hs, h⟩ => h ▸ .pick hs rfl⟩

/-! ### A refused command -/

/-- A command whose check fails is answered with the status of the check, and nothing else changes (R106, R108, R109). -/
theorem exec_of_refuses (h : Refuses s i e) : exec i s = .next (respond e 0 s) := by
  cases h with
  | notSeeded hs hi => exact exec_unseeded hs hi
  | rangeu hs h => exact exec_rangeu_invalid hs ((rangeuInvalid_iff _ _).mp h)
  | ranges hs h => exact exec_ranges_invalid hs ((rangesInvalid_iff _ _).mp h)
  | unsigned hs h => rw [exec_unsigned_seeded _ hs, widthChecked, if_neg h, raise_eq]
  | signed hs h => rw [exec_signed_seeded _ hs, widthChecked, if_neg h, raise_eq]
  | pick hs h => rw [h, exec_pick_zero hs]

/-- A status other than OK is answered exactly when the check that it reports fails. -/
theorem status_eq_iff_refuses (he : e ≠ .ok) (h : exec i s = .next t) (answer : s.Answers t a) :
    a.status = e ↔ Refuses s i e := by
  constructor
  · rintro rfl
    obtain ⟨e, refused, h'⟩ | completes := exec_refuses_or_ok i s
    · rw [h', raise_eq] at h
      cases h
      rwa [answers_unique answer rfl]
    · obtain ⟨v, ok⟩ := completes t h
      rw [answers_unique answer ok] at he
      exact absurd rfl he
  · intro refused
    rw [exec_of_refuses refused] at h
    cases h
    rw [answers_unique answer rfl]

/-- Nothing but the response is written where the status is not OK (R108, R109). -/
theorem exec_not_ok_frame (h : exec i s = .next t) (answer : s.Answers t a) (he : a.status ≠ .ok) :
    t = respond a.status 0 s := by
  rw [exec_of_refuses ((status_eq_iff_refuses he h answer).mp rfl)] at h
  cases h
  rfl

theorem perform_not_ok_frame {r : Request} (h : perform r s = .next t) :
    ∃ a, s.Answers t a ∧ (a.status ≠ .ok → t = respond a.status 0 s) := by
  cases hd : decode r with
  | illegal why =>
    rw [perform_of_illegal hd, raise_eq] at h
    cases h
    exact ⟨_, rfl, fun _ => rfl⟩
  | legal i =>
    rw [perform_of_legal hd] at h
    obtain ⟨-, a, answer⟩ := exec_answers h
    exact ⟨a, answer, exec_not_ok_frame h answer⟩

/-- The checks of a legal command decide its step, in the state less the request (R112). -/
theorem step_of_refuses {r : Request} {rest : List Request} (hq : s.requests = r :: rest) (hd : decode r = .legal i)
    (h : Refuses { s with requests := rest } i e) :
    step s = .next (respond e 0 { s with requests := rest }) := by
  rw [step_of_request hq, perform_of_legal hd, exec_of_refuses h]

end

end Sys2Proof.Machine

namespace Sys2Proof.Proofs
open Machine

/-- Settles O16: an illegal word is refused before `exec`, `exec` refuses an unseeded block first, and on a seeded block the
condition of the command's own status refuses it. -/
theorem checksComeInOrder : Obligations.ChecksComeInOrder := by
  intro s r rest hq
  obtain ⟨legal, -⟩ := stepPerformsTheDecodedCommand
  refine ⟨fun why hd => step_of_illegal hq hd, fun i hd hi hs => step_of_refuses hq hd (.notSeeded hs hi),
    fun i hd => legal s r rest i hq hd, fun hs => ⟨fun lo hi hd h => ?rangeu, fun lo hi hd h => ?ranges,
      fun n hd h8 h16 h32 h64 => ?width, fun hd => step_of_refuses hq hd (.pick hs rfl)⟩⟩
  case rangeu => exact step_of_refuses hq hd (.rangeu hs ((rangeuInvalid_iff lo hi).mpr h))
  case ranges => exact step_of_refuses hq hd (.ranges hs ((rangesInvalid_iff lo hi).mpr h))
  case width =>
    have invalid := (not_widthValid_iff n).mpr ⟨h8, h16, h32, h64⟩
    obtain hd | hd := hd
    · exact step_of_refuses hq hd (.unsigned hs invalid)
    · exact step_of_refuses hq hd (.signed hs invalid)

/-- Settles O17: `perform` writes nothing but its response where the status is not OK, and that response has RESULT 0. -/
theorem refusedCommandsChangeNothing : Obligations.RefusedCommandsChangeNothing := by
  intro s t r rest hq h
  rw [step_of_request hq] at h
  obtain ⟨requests, -⟩ := perform_keeps h
  obtain ⟨a, answer, frame⟩ := perform_not_ok_frame h
  refine ⟨a, answer, requests, fun he => ⟨?_, frame he⟩⟩
  have response : a = ⟨a.status, 0⟩ := answers_unique answer (congrArg State.responses (frame he))
  exact congrArg Response.result response

/-- Settles O19: the status names the check that failed, and the condition of each check is written out. -/
theorem eachStatusHasItsCondition : Obligations.EachStatusHasItsCondition := fun _ _ _ _ h answer =>
  ⟨(status_eq_iff_refuses (by decide) h answer).trans refuses_notSeeded_iff,
    (status_eq_iff_refuses (by decide) h answer).trans refuses_invalidRange_iff,
    (status_eq_iff_refuses (by decide) h answer).trans refuses_invalidBitWidth_iff,
    (status_eq_iff_refuses (by decide) h answer).trans refuses_absent_iff,
    exec_status_ne_illegalCommand h answer, exec_not_ok_frame h answer⟩

/-- Settles O18: the codes of the six statuses, none of which is 6 or 7. -/
theorem statusCodesAreTheTable : Obligations.StatusCodesAreTheTable :=
  ⟨rfl, rfl, rfl, rfl, rfl, rfl, fun st => by cases st <;> decide⟩

end Sys2Proof.Proofs
end

