-- ==== Sys2Proof/Proofs/Reset.lean ====
section
/-!
SUPPORT. The family 70_reset_and_hazards: the block after the reset event (spec/70_reset_and_hazards.md R130), the block before
its first SEED (R131), and the boot sequence (R133).
-/
namespace Sys2Proof.Machine

/-- A block with no request waiting stays as it is, however long it runs (R125). -/
theorem run_idle {s : State} (hq : s.requests = []) (k : Nat) : core.run k s = .next s := by
  induction k with
  | zero => rfl
  | succ k ih => rw [run_succ_of_step (step_idle hq), ih]

end Sys2Proof.Machine

namespace Sys2Proof.Proofs
open Machine

/-- Settles O3: the abandoned requests are gone from the channel, and a block with no request waiting idles. -/
theorem resetAbandonsTheCommandInProgress : Obligations.ResetAbandonsTheCommandInProgress := fun s =>
  ⟨resetEvent_seeded s, resetEvent_state s, resetEvent_requests s, resetEvent_responses s, resetEvent_params s,
    run_idle (resetEvent_requests s)⟩

/-- Settles O4: NOT_SEEDED refuses every command but SEED, and an illegal word is refused before that check. -/
theorem unseededBlockAnswersNotSeeded : Obligations.UnseededBlockAnswersNotSeeded := fun _ _ _ hs hq =>
  ⟨fun _ hd hi => step_of_refuses hq hd (.notSeeded hs hi), fun _ hd => step_of_illegal hq hd⟩

/-- Settles O6: the SEED stands alone in the idle request channel, so the next step performs it. -/
theorem bootIsResetThenSeed : Obligations.BootIsResetThenSeed := fun s v =>
  step_seed (s := presentRequest (encode (.seed v)) (resetEvent s)) rfl

end Sys2Proof.Proofs
end
